-- ==== Sys2Proof/Word.lean ====
section
/-! DEFINITION. The widths of the block's words (00_scope.md R8). -/

namespace Sys2Proof

/-- An 8-bit operand, a raw byte or the configuration byte (R8). -/
abbrev Byte := BitVec 8

/-- A command word (R60). -/
abbrev CommandWord := BitVec 64

/-- A signed count or the integer result, 32 bits two's complement (R8). -/
abbrev Count := BitVec 32

/-- The diagnostic snapshot, six bytes with `d[0]` in bits 47:40 (R23, R80). -/
abbrev Snapshot := BitVec 48

/-- An IEEE 754 binary64 bit pattern (R8). -/
abbrev F64 := BitVec 64

end Sys2Proof
end

