-- ==== Sys2Proof/Syntax.lean ====
section
/-! DEFINITION. The commands: one constructor per row of the command map (30_encoding.md R61). -/

namespace Sys2Proof

/-- The raw response `raw[0..3]`: `b0` is the first byte the device sends (R10, R43). -/
structure Raw where
  b0 : Byte
  b1 : Byte
  b2 : Byte
  b3 : Byte
deriving DecidableEq, Repr

/-- A command with the operand fields of its format (R62 to R66). A word's reserved bits are zero in
every command (R69), so they are no operand. -/
inductive Instr where
  /-- ENCFG, format C (R62, R103). -/
  | encfg (ch res gain : Byte)
  /-- DECODE, format D (R63, R140). -/
  | decode (nb res : Byte) (raw : Raw)
  /-- SCALE, format S (R64, R183). -/
  | scale (gain res : Byte) (count : Count)
  /-- CONVERT, format V (R65, R184). -/
  | convert (gain res : Byte) (raw : Raw)
  /-- GAINF, format H (R66, R110). -/
  | gainf (code : Byte)
  /-- RESB, format H (R66, R111). -/
  | resb (code : Byte)
deriving DecidableEq, Repr

end Sys2Proof
end

