-- ==== Sys2Proof/Decode.lean ====
section
/-! DEFINITION. Decoding a command word, total and rejecting by name, and encoding a command
(30_encoding.md R60 to R69, R81, R82). -/

namespace Sys2Proof

/-- Why a word spells no command: the reasons of IllegalCommand (60_exceptions.md R223). -/
inductive IllegalReason where
  /-- `cmd[63:60]` is 0x0 or 0x7 to 0xF (R68). -/
  | reservedOp
  /-- a defined op with a bit of its format's `rsv` field set (R69). -/
  | reservedBits
deriving DecidableEq, Repr

/-- The field `w[hi:lo]` of a command word (R10). -/
abbrev field (w : CommandWord) (hi lo : Nat) : BitVec (hi - lo + 1) := w.extractLsb hi lo

/-- `raw[0..3]` from `cmd[31:0]`, `raw[0]` in bits 31:24 (20_memory.md R44). -/
def rawField (w : CommandWord) : Raw :=
  { b0 := field w 31 24, b1 := field w 23 16, b2 := field w 15 8, b3 := field w 7 0 }

/-- Rejects a word whose `rsv` field is not zero (R69). -/
def checkReserved {n : Nat} (rsv : BitVec n) (i : Instr) : Except IllegalReason Instr :=
  if rsv = 0 then .ok i else .error .reservedBits

/-- R61: the format is told from `op = cmd[63:60]` alone, and the reserved bits are checked after it (R224). -/
def decode (w : CommandWord) : Except IllegalReason Instr :=
  match (field w 63 60).toNat with
  | 0x1 => checkReserved (field w 59 24) (.encfg (field w 23 16) (field w 15 8) (field w 7 0))
  | 0x2 => checkReserved (field w 59 48) (.decode (field w 47 40) (field w 39 32) (rawField w))
  | 0x3 => checkReserved (field w 59 48) (.scale (field w 47 40) (field w 39 32) (field w 31 0))
  | 0x4 => checkReserved (field w 59 48) (.convert (field w 47 40) (field w 39 32) (rawField w))
  | 0x5 => checkReserved (field w 59 8) (.gainf (field w 7 0))
  | 0x6 => checkReserved (field w 59 8) (.resb (field w 7 0))
  | _ => .error .reservedOp

/-- `raw` as the 32-bit number with `raw[0]` first (R81). -/
def rawNat (r : Raw) : Nat :=
  r.b0.toNat * 2 ^ 24 + r.b1.toNat * 2 ^ 16 + r.b2.toNat * 2 ^ 8 + r.b3.toNat

/-- The word of a command as a number: each field of its format at its lowest bit's place, reserved bits zero
(R62 to R66). -/
def encodeNat : Instr → Nat
  | .encfg ch res gain => 0x1 * 2 ^ 60 + ch.toNat * 2 ^ 16 + res.toNat * 2 ^ 8 + gain.toNat
  | .decode nb res raw => 0x2 * 2 ^ 60 + nb.toNat * 2 ^ 40 + res.toNat * 2 ^ 32 + rawNat raw
  | .scale gain res count => 0x3 * 2 ^ 60 + gain.toNat * 2 ^ 40 + res.toNat * 2 ^ 32 + count.toNat
  | .convert gain res raw => 0x4 * 2 ^ 60 + gain.toNat * 2 ^ 40 + res.toNat * 2 ^ 32 + rawNat raw
  | .gainf code => 0x5 * 2 ^ 60 + code.toNat
  | .resb code => 0x6 * 2 ^ 60 + code.toNat

/-- The word of a command (R62 to R66). -/
def encode (i : Instr) : CommandWord := BitVec.ofNat 64 (encodeNat i)

/-- The pseudo-instruction `DECODE.A raw, res` (R82): DECODE with the payload length of `res`, and with 2
for a `res` outside the legal set. -/
def expandDecodeA (raw : Raw) (res : Byte) : Instr := .decode (if res = 18 then 3 else 2) res raw

/-- The command read from a word of the opcode table's numbering: bit 0 is bit 0 of `cmd`, bits from `nbits`
up are zero, and a number that does not fit the 64-bit port is no command (R60). -/
def decodeTableWord (nbits w : Nat) : Option Instr :=
  if w % 2 ^ nbits < 2 ^ 64 then (decode (BitVec.ofNat 64 (w % 2 ^ nbits))).toOption else none

end Sys2Proof
end

