-- ==== Sys2Proof/Config.lean ====
section
/-! DEFINITION. What is fixed when the block is built (00_scope.md R6, 92_eei_decisions.md, "Parameters left to the model"),
and the one value that IEEE 754 leaves open. -/

namespace Sys2Proof

/-- CFG_FIELD_ORDER: the order of the configuration byte's fields. The spec gives it one value only;
"The switch exists only to make the assumption visible in a model" (92_eei_decisions.md D6; log entry 6). -/
inductive CfgFieldOrder where
  | msbFirst
deriving DecidableEq, Repr

/-- The parameters of the block. LEGACY_FALLBACK is "fixed for the life of the block, and no command
reads it back or changes it" (R6). The defaults are the spec's. -/
structure Params where
  legacyFallback : Bool := false
  cfgFieldOrder : CfgFieldOrder := .msbFirst
deriving DecidableEq, Repr

/-- FREE VALUE (log entry 8): the sign and payload bits of a NaN that a binary64 operation on these two
operands delivers; IEEE 754 leaves them open. No command of the block reaches it (R182). -/
opaque Config.nanBits : F64 → F64 → F64

end Sys2Proof
end

