-- ==== Sys2Proof/Machine/Operands.lean ====
section
/-! DEFINITION. The operand sets and the code functions the commands share
(30_encoding.md R70 to R75, 40_config_encoder.md R100 to R102). -/

namespace Sys2Proof.Machine

/-- `ch` in 1..4 (R103). -/
def isChannel (ch : Byte) : Bool := 1 ≤ ch.toNat && ch.toNat ≤ 4

/-- `gainCode`, defined only on {1, 2, 4, 8} (R71, R100). -/
def gainCode (g : Byte) : Option (BitVec 2) :=
  match g.toNat with
  | 1 => some 0
  | 2 => some 1
  | 4 => some 2
  | 8 => some 3
  | _ => none

/-- `rateCode`, defined only on {12, 14, 16, 18} (R72, R100). -/
def rateCode (r : Byte) : Option (BitVec 2) :=
  match r.toNat with
  | 12 => some 0
  | 14 => some 1
  | 16 => some 2
  | 18 => some 3
  | _ => none

/-- `res in {12, 14, 16, 18}` (R140, R183). -/
def isResolution (r : Byte) : Bool := r.toNat == 12 || r.toNat == 14 || r.toNat == 16 || r.toNat == 18

/-- `gain in {1, 2, 4, 8}` (R183). -/
def isGain (g : Byte) : Bool := g.toNat == 1 || g.toNat == 2 || g.toNat == 4 || g.toNat == 8

/-- The code ENCFG sends: the operand's own, or with LEGACY_FALLBACK the code `00` for an operand outside its
set (R6, R103). -/
def codeOrFallback (p : Params) (code : Option (BitVec 2)) : Option (BitVec 2) :=
  match code with
  | some c => some c
  | none => if p.legacyFallback then some 0 else none

/-- `numDataBytes`, for every 8-bit resolution (R75, R102). -/
def numDataBytes (r : Byte) : Nat := if r = 18 then 3 else 2

/-- `packCfg` (R101): start = 1, channelBits, conversionMode = 0, sampleRateCode, gainCode, most significant
first (R70, D6; log entry 6). -/
def packCfg (order : CfgFieldOrder) (ch : Byte) (rc gc : BitVec 2) : Byte :=
  match order with
  | .msbFirst => 0x80 ||| ((ch - 1) <<< 5) ||| (0 <<< 4) ||| (rc.setWidth 8 <<< 2) ||| gc.setWidth 8

end Sys2Proof.Machine
end

