-- ==== Sys2Proof/Machine/State.lean ====
section
/-! DEFINITION. The block's parameters, ports and response (10_state.md R20 to R32), the reasons a step can
stop, and the state after reset. -/

namespace Sys2Proof.Machine

/-- The output ports (R23). -/
inductive Port where
  | status
  | faultInfo
  | outByte
  | outInt
  | outSnap
  | outF64
deriving DecidableEq, Repr

/-- The width of an output port (R23). -/
def Port.width : Port → Nat
  | .status => 2
  | .faultInfo => 4
  | .outByte => 8
  | .outInt => 32
  | .outSnap => 48
  | .outF64 => 64

/-- One action of the host on the pins (R22, R24, R260; log entry 2). -/
inductive Input where
  /-- assert `cmd_valid` with this word on `cmd` (R22). -/
  | command (w : CommandWord)
  /-- assert `cmd_valid` with this word, and reset while the block executes it (R260). -/
  | cutCommand (w : CommandWord)
  /-- assert reset between commands (R260). -/
  | reset
  /-- read an output port (R24). -/
  | read (p : Port)
deriving DecidableEq, Repr

/-- The block and what the host drives it with. An output port that is `none` holds no value: that is the
spec's own state of a port (R24, R32). -/
structure State where
  /-- the static parameters, LEGACY_FALLBACK among them (R6, R28). -/
  params : Params
  /-- `cmd`, the command word on the input port (R22). -/
  cmd : CommandWord
  /-- `cmd_valid`, the strobe (R22). -/
  cmdValid : Bool
  /-- the reset input (R260); the model's own name. -/
  rst : Bool
  /-- the output port that the host reads in this step (R24); the model's own field. -/
  rd : Option Port
  /-- what the host does on the pins in the steps after this one, first action first; the model's own field. -/
  inputs : List Input
  /-- `status` (R23). -/
  status : Option (BitVec 2)
  /-- `fault_info` (R23). -/
  faultInfo : Option (BitVec 4)
  /-- `out.byte` (R23). -/
  outByte : Option Byte
  /-- `out.int` (R23). -/
  outInt : Option Count
  /-- `out.snap` (R23). -/
  outSnap : Option Snapshot
  /-- `out.f64` (R23). -/
  outF64 : Option F64
deriving DecidableEq, Repr

/-- The reasons the machine stops. -/
inductive Fault where
  /-- Raised by `step` when the host reads an output port that holds no value. SAFE: the spec says "A model must
  treat a read of it as a fault" (R24, R32). -/
  | portHoldsNoValue (p : Port)
deriving DecidableEq, Repr

/-- The reasons a command has no meaning in this model. -/
inductive Refusal where
  /-- Raised by `exec` for a command that is not modelled; no arm raises it. SAFE: the model stops. -/
  | notModelled (mnemonic : String)
deriving DecidableEq, Repr

/-- The block after reset when it is built with these parameters: every output port holds no value (R32), the
parameters are kept (R32), and the host drives nothing (log entry 3). -/
def State.resetWith (p : Params) : State :=
  { params := p, cmd := 0, cmdValid := false, rst := false, rd := none, inputs := []
    status := none, faultInfo := none, outByte := none, outInt := none, outSnap := none, outF64 := none }

/-- The machine right after reset, with the default parameters of R6 (R32, R260). -/
def State.reset : State := State.resetWith {}

end Sys2Proof.Machine
end

