-- ==== Sys2Proof/Machine/Flags.lean ====
section
/-! DEFINITION. The block has no flags and no condition codes (10_state.md R27). Success or failure is reported
on `status` and `fault_info`; their codes stand here (R23, 60_exceptions.md R221 to R223). -/

namespace Sys2Proof.Machine

/-- The operand that a ConfigurationError names (R222). -/
inductive OperandCode where
  | channel
  | resolution
  | gain
  | nbytes
  | code
deriving DecidableEq, Repr

/-- The faults a command can raise (R221). Each is a value of the response, no stop of the machine (R226). -/
inductive CommandFault where
  | configurationError (o : OperandCode)
  | illegalCommand (r : IllegalReason)
deriving DecidableEq, Repr

/-- `status = OK` (R23). -/
def statusOk : BitVec 2 := 0

/-- The `fault_info` code of an operand (R222). -/
def operandInfo : OperandCode → BitVec 4
  | .channel => 1
  | .resolution => 2
  | .gain => 3
  | .nbytes => 4
  | .code => 5

/-- The `fault_info` code of an IllegalCommand's reason (R223). -/
def illegalInfo : IllegalReason → BitVec 4
  | .reservedOp => 1
  | .reservedBits => 2

/-- The `status` code of a fault (R23, R221). -/
def faultStatus : CommandFault → BitVec 2
  | .configurationError _ => 1
  | .illegalCommand _ => 2

/-- The `fault_info` code of a fault (R222, R223). -/
def faultCode : CommandFault → BitVec 4
  | .configurationError o => operandInfo o
  | .illegalCommand r => illegalInfo r

end Sys2Proof.Machine
end

