-- ==== Sys2Proof/Machine/Ops.lean ====
section
/-! DEFINITION. The shared operations on the ports: completing a command, raising a fault, reset, reading a
port, and the host's next action. -/

namespace Sys2Proof.Machine

/-- The result ports a successful command writes; a port it does not name holds no value (R24, R25). -/
structure Results where
  byte : Option Byte := none
  int : Option Count := none
  snap : Option Snapshot := none
  f64 : Option F64 := none
deriving DecidableEq, Repr

/-- How a command ends (R220): with results, or with exactly one fault. -/
abbrev Response := Except CommandFault Results

/-- `status <- OK` with the results the command writes; `fault_info` holds no value (R23, R24). -/
def State.complete (r : Results) (s : State) : State :=
  { s with
    status := some statusOk, faultInfo := none
    outByte := r.byte, outInt := r.int, outSnap := r.snap, outF64 := r.f64 }

/-- Raising a fault: `status` and `fault_info` report it, no result port holds a value, and nothing else
changes (R220, R226). -/
def State.raise (f : CommandFault) (s : State) : State :=
  { s with
    status := some (faultStatus f), faultInfo := some (faultCode f)
    outByte := none, outInt := none, outSnap := none, outF64 := none }

/-- Every command ends by completing or by raising (R220). -/
def State.respond (r : Response) (s : State) : State :=
  match r with
  | .ok res => s.complete res
  | .error f => s.raise f

/-- A response as the outcome of a step: both endings are next states, because a fault transfers control
nowhere (R226) and the block accepts the next command like any other (R227). -/
def answer (r : Response) (s : State) : Host.Outcome State Fault Refusal := .next (s.respond r)

/-- Reset: every output port holds no value, the parameters are kept (R32, R260). -/
def State.clearPorts (s : State) : State :=
  { s with
    status := none, faultInfo := none
    outByte := none, outInt := none, outSnap := none, outF64 := none }

/-- The value an output port holds, if it holds one (R23, R24). -/
def State.port (p : Port) (s : State) : Option (BitVec p.width) :=
  match p with
  | .status => s.status
  | .faultInfo => s.faultInfo
  | .outByte => s.outByte
  | .outInt => s.outInt
  | .outSnap => s.outSnap
  | .outF64 => s.outF64

/-- The host reads a port: a port that holds no value faults (R24, R32). -/
def readPort (p : Port) (s : State) : Except Fault (BitVec p.width) :=
  match s.port p with
  | some v => .ok v
  | none => .error (.portHoldsNoValue p)

/-- The read fault of this step, if the host reads a port that holds no value (R24). -/
def readFault (s : State) : Option Fault :=
  match s.rd with
  | none => none
  | some p => if (s.port p).isSome then none else some (.portHoldsNoValue p)

/-- The strobe is consumed, and the host puts its next action on the pins (log entries 1 and 2). -/
def State.drive (s : State) : State :=
  match s.inputs with
  | [] => { s with cmdValid := false, rst := false, rd := none }
  | .command w :: rest => { s with cmd := w, cmdValid := true, rst := false, rd := none, inputs := rest }
  | .cutCommand w :: rest => { s with cmd := w, cmdValid := true, rst := true, rd := none, inputs := rest }
  | .reset :: rest => { s with cmdValid := false, rst := true, rd := none, inputs := rest }
  | .read p :: rest => { s with cmdValid := false, rst := false, rd := some p, inputs := rest }

/-- The host asserts `cmd_valid` with this word on `cmd`, with no reset and no read (R22). -/
def State.present (w : CommandWord) (s : State) : State :=
  { s with cmd := w, cmdValid := true, rst := false, rd := none }

/-- A step's outcome with the host's next action put on the pins. -/
def thenDrive (o : Host.Outcome State Fault Refusal) : Host.Outcome State Fault Refusal :=
  match o with
  | .next s => .next s.drive
  | .fault f => .fault f
  | .refused r => .refused r

end Sys2Proof.Machine
end

