-- ==== Sys2Proof/Machine/ConfigEncoder.lean ====
section
/-! DEFINITION. The configuration encoder and the field helpers: ENCFG, GAINF, RESB (40_config_encoder.md). -/

namespace Sys2Proof.Machine

/-- The response of ENCFG (R103): the checks in the order CHANNEL, RESOLUTION, GAIN (R224). -/
def encfgResponse (p : Params) (ch res gain : Byte) : Response :=
  if isChannel ch then
    match codeOrFallback p (rateCode res) with
    | none => .error (.configurationError .resolution)
    | some rc =>
      match codeOrFallback p (gainCode gain) with
      | none => .error (.configurationError .gain)
      | some gc =>
        .ok { byte := some (packCfg p.cfgFieldOrder ch rc gc), int := some (BitVec.ofNat 32 (numDataBytes res)) }
  else .error (.configurationError .channel)

/-- ENCFG (R103). -/
def execEncfg (ch res gain : Byte) (s : State) : Host.Outcome State Fault Refusal :=
  answer (encfgResponse s.params ch res gain) s

/-- The response of GAINF (R110). -/
def gainfResponse (code : Byte) : Response :=
  if 3 < code.toNat then .error (.configurationError .code)
  else .ok { byte := some (BitVec.ofNat 8 (1 <<< code.toNat)) }

/-- GAINF (R110). -/
def execGainf (code : Byte) (s : State) : Host.Outcome State Fault Refusal :=
  answer (gainfResponse code) s

/-- The response of RESB (R111). -/
def resbResponse (code : Byte) : Response :=
  if 3 < code.toNat then .error (.configurationError .code)
  else .ok { byte := some (BitVec.ofNat 8 (12 + 2 * code.toNat)) }

/-- RESB (R111). -/
def execResb (code : Byte) (s : State) : Host.Outcome State Fault Refusal :=
  answer (resbResponse code) s

end Sys2Proof.Machine
end

