-- ==== Sys2Proof/Machine/ResponseDecoder.lean ====
section
/-! DEFINITION. The response decoder: DECODE (41_response_decoder.md). -/

namespace Sys2Proof.Machine

/-- The working buffer `w[0..3]`, transient inside one command (10_state.md R29). -/
structure Working where
  w0 : Byte
  w1 : Byte
  w2 : Byte
  w3 : Byte
deriving DecidableEq, Repr

/-- The mask on the middle byte in 2-byte mode (R142). -/
def maskMiddle (res b : Byte) : Byte :=
  if res = 14 then b &&& 0x1F else if res = 12 then b &&& 0x07 else b

/-- R141 with a 3-byte payload, R142 with a 2-byte one. -/
def workingBuffer (nb : Nat) (res : Byte) (raw : Raw) : Working :=
  if nb = 3 then { w0 := raw.b0 &&& 0x01, w1 := raw.b1, w2 := raw.b2, w3 := raw.b3 }
  else { w0 := 0x00, w1 := maskMiddle res raw.b0, w2 := raw.b1, w3 := raw.b2 }

/-- The assembled count, an unsigned 24-bit integer (R143). -/
def assembledCount (w : Working) : Nat :=
  (w.w0.toNat <<< 16) ||| (w.w1.toNat <<< 8) ||| w.w2.toNat

/-- `s8(b)` (R11). -/
def s8 (b : Byte) : Int := b.toInt

/-- `lowbyte(i)` (R11). -/
def lowbyte (i : Int) : Byte := BitVec.ofInt 8 i

/-- The sign rule on the unmasked first raw byte (R144). -/
def adjustedCount (res raw0 : Byte) (count : Nat) : Int :=
  if s8 raw0 < 0 then (count : Int) - (2 ^ (res.toNat - 1) - 1) else count

/-- The diagnostic snapshot `d[0..5]`, `d[0]` most significant (R80, R145). -/
def snapshot (w : Working) (adj : Int) (res : Byte) : Snapshot :=
  w.w0 ++ w.w1 ++ w.w2 ++ w.w3 ++ lowbyte adj ++ res

/-- What the decoder delivers: the adjusted count in the integers, and the snapshot. -/
structure Decoded where
  adj : Int
  snap : Snapshot
deriving DecidableEq, Repr

/-- `decodeCore` (R140): the steps of R141 to R145. -/
def decodeCore (raw : Raw) (nb : Nat) (res : Byte) : Decoded :=
  let w := workingBuffer nb res raw
  let adj := adjustedCount res raw.b0 (assembledCount w)
  { adj := adj, snap := snapshot w adj res }

/-- The response of DECODE (R140): RESOLUTION is checked before NBYTES (R224). -/
def decodeResponse (nb res : Byte) (raw : Raw) : Response :=
  if isResolution res then
    if nb.toNat = numDataBytes res then
      let d := decodeCore raw nb.toNat res
      .ok { int := some (BitVec.ofInt 32 d.adj), snap := some d.snap }
    else .error (.configurationError .nbytes)
  else .error (.configurationError .resolution)

/-- DECODE (R140). -/
def execDecode (nb res : Byte) (raw : Raw) (s : State) : Host.Outcome State Fault Refusal :=
  answer (decodeResponse nb res raw) s

end Sys2Proof.Machine
end

