-- ==== Sys2Proof/Machine/Binary64.lean ====
section
/-! DEFINITION. The binary64 primitives `f64`, `mulRN` and `divRN` (00_scope.md R13): IEEE 754 binary64 on bit
patterns, computed exactly on integers and rounded once, to nearest with ties to even (log entry 7). -/

namespace Sys2Proof.Machine

/-- What a binary64 bit pattern stands for: a finite value is `sig * 2 ^ exp`, negated when `neg`. -/
inductive Binary64 where
  | finite (neg : Bool) (sig : Nat) (exp : Int)
  | inf (neg : Bool)
  | nan
deriving DecidableEq, Repr

/-- The pattern's three fields read: sign bit 63, exponent bits 62:52 with bias 1023, fraction bits 51:0. -/
def unpackF64 (x : F64) : Binary64 :=
  let e := (x.extractLsb 62 52).toNat
  let f := (x.extractLsb 51 0).toNat
  if e = 2047 then (if f = 0 then .inf x.msb else .nan)
  else if e = 0 then .finite x.msb f (-1074)
  else .finite x.msb (2 ^ 52 + f) ((e : Int) - 1075)

/-- The rational number a finite value stands for; infinities and NaNs stand for none. -/
def Binary64.toRat : Binary64 → Option ℚ
  | .finite neg sig exp => some ((if neg then -1 else 1) * (sig : ℚ) * 2 ^ exp)
  | .inf _ => none
  | .nan => none

/-- The rational number a bit pattern stands for (R13). -/
def f64Value (x : F64) : Option ℚ := (unpackF64 x).toRat

/-- The pattern with this sign whose bits 62:0 are `mag`. -/
def signed (neg : Bool) (mag : Nat) : F64 :=
  BitVec.ofNat 64 (if neg then 2 ^ 63 + mag else mag)

/-- Bits 62:0 of infinity. -/
def infMag : Nat := 2047 * 2 ^ 52

/-- `n / d` rounded to the nearest integer, a tie to the even one. -/
def roundDiv (n d : Nat) : Nat :=
  if 2 * (n % d) < d then n / d
  else if d < 2 * (n % d) then n / d + 1
  else n / d + (n / d) % 2

/-- `2 ^ floorLog2Div n d <= n / d < 2 ^ (floorLog2Div n d + 1)`, for positive `n` and `d`: the two logarithms
give it or one more, and one comparison decides. -/
def floorLog2Div (n d : Nat) : Int :=
  let k : Int := (Nat.log2 n : Int) - (Nat.log2 d : Int)
  if d * 2 ^ k.toNat ≤ n * 2 ^ (-k).toNat then k else k - 1

/-- The exponent of the last place of a rounded `n / d * 2 ^ e`: it leaves 53 significant bits, and it is
-1074 at least, the last place of the subnormal numbers. -/
def ulpExp (n d : Nat) (e : Int) : Int := max (floorLog2Div n d + e - 52) (-1074)

/-- The binary64 pattern nearest to `n / d * 2 ^ e` with the sign `neg`, a tie to the even significand, and
infinity where the rounded value is too large. With `u` the exponent of the last place and `m` the rounded
significand, `(u + 1074) * 2 ^ 52 + m` is the pattern's magnitude for normal and subnormal numbers alike,
also when rounding carries `m` to `2 ^ 53`. -/
def roundF64 (neg : Bool) (n d : Nat) (e : Int) : F64 :=
  if n = 0 then signed neg 0
  else
    let u := ulpExp n d e
    let m := roundDiv (n * 2 ^ (e - u).toNat) (d * 2 ^ (u - e).toNat)
    signed neg (min ((u + 1074).toNat * 2 ^ 52 + m) infMag)

/-- A NaN result: quiet, its sign and payload free (log entry 8). -/
def nanF64 (a b : F64) : F64 := Config.nanBits a b ||| 0x7FF8000000000000#64

/-- `f64(i)`: the binary64 value of an integer, exact for `|i| < 2^53` (R13). -/
def f64 (i : Int) : F64 := roundF64 (decide (i < 0)) i.natAbs 1 0

/-- `mulRN(a, b)` (R13). -/
def mulRN (a b : F64) : F64 :=
  match unpackF64 a, unpackF64 b with
  | .finite s m e, .finite t n g => roundF64 (s ^^ t) (m * n) 1 (e + g)
  | .inf s, .finite t n _ => if n = 0 then nanF64 a b else signed (s ^^ t) infMag
  | .finite s m _, .inf t => if m = 0 then nanF64 a b else signed (s ^^ t) infMag
  | .inf s, .inf t => signed (s ^^ t) infMag
  | .nan, .finite _ _ _ => nanF64 a b
  | .nan, .inf _ => nanF64 a b
  | .nan, .nan => nanF64 a b
  | .finite _ _ _, .nan => nanF64 a b
  | .inf _, .nan => nanF64 a b

/-- `divRN(a, b)` (R13). -/
def divRN (a b : F64) : F64 :=
  match unpackF64 a, unpackF64 b with
  | .finite s m e, .finite t n g =>
    if n = 0 then (if m = 0 then nanF64 a b else signed (s ^^ t) infMag)
    else roundF64 (s ^^ t) m n (e - g)
  | .inf s, .finite t _ _ => signed (s ^^ t) infMag
  | .finite s _ _, .inf t => signed (s ^^ t) 0
  | .inf _, .inf _ => nanF64 a b
  | .nan, .finite _ _ _ => nanF64 a b
  | .nan, .inf _ => nanF64 a b
  | .nan, .nan => nanF64 a b
  | .finite _ _ _, .nan => nanF64 a b
  | .inf _, .nan => nanF64 a b

end Sys2Proof.Machine
end

