-- ==== Sys2Proof/Machine/VoltageScaler.lean ====
section
/-! DEFINITION. The voltage scaler and the composite conversion: SCALE, CONVERT (42_voltage_scaler.md). -/

namespace Sys2Proof.Machine

/-- `VREF`, the binary64 value nearest to 2.048 (00_scope.md R7). -/
def vref : F64 := 0x4000624DD2F1A9FC

/-- The LSB size of a resolution, in the order the source writes it (R180). -/
def lsb (res : Byte) : F64 := divRN (mulRN (f64 2) vref) (f64 (2 ^ res.toNat))

/-- The scaled voltage, in the order the source writes it (R181). -/
def scaleCore (count : Int) (res gain : Byte) : F64 :=
  divRN (mulRN (f64 count) (lsb res)) (f64 gain.toNat)

/-- The response of SCALE (R183): RESOLUTION is checked before GAIN (R224). -/
def scaleResponse (gain res : Byte) (count : Count) : Response :=
  if isResolution res then
    if isGain gain then .ok { f64 := some (scaleCore count.toInt res gain) }
    else .error (.configurationError .gain)
  else .error (.configurationError .resolution)

/-- SCALE (R183). -/
def execScale (gain res : Byte) (count : Count) (s : State) : Host.Outcome State Fault Refusal :=
  answer (scaleResponse gain res count) s

/-- The response of CONVERT (R184). -/
def convertResponse (gain res : Byte) (raw : Raw) : Response :=
  if isResolution res then
    if isGain gain then
      let d := decodeCore raw (numDataBytes res) res
      .ok { int := some (BitVec.ofInt 32 d.adj), snap := some d.snap, f64 := some (scaleCore d.adj res gain) }
    else .error (.configurationError .gain)
  else .error (.configurationError .resolution)

/-- CONVERT (R184). -/
def execConvert (gain res : Byte) (raw : Raw) (s : State) : Host.Outcome State Fault Refusal :=
  answer (convertResponse gain res raw) s

end Sys2Proof.Machine
end

