-- ==== Sys2Proof/Machine/Dispatch.lean ====
section
/-! DEFINITION. One arm per command (30_encoding.md R61). -/

namespace Sys2Proof.Machine

/-- What a command does (R103, R140, R183, R184, R110, R111). -/
def exec (i : Instr) (s : State) : Host.Outcome State Fault Refusal :=
  match i with
  | .encfg ch res gain => Sys2Proof.Machine.execEncfg ch res gain s
  | .decode nb res raw => Sys2Proof.Machine.execDecode nb res raw s
  | .scale gain res count => Sys2Proof.Machine.execScale gain res count s
  | .convert gain res raw => Sys2Proof.Machine.execConvert gain res raw s
  | .gainf code => Sys2Proof.Machine.execGainf code s
  | .resb code => Sys2Proof.Machine.execResb code s

end Sys2Proof.Machine
end

