-- ==== Sys2Proof/Machine/Step.lean ====
section
/-! DEFINITION. One step of the block: at most one assertion of the strobe (10_state.md R22, 20_memory.md R47). -/

namespace Sys2Proof.Machine

/-- Executes the word on `cmd`: a word that spells no command raises IllegalCommand (R68, R69). -/
def execWord (w : CommandWord) (s : State) : Host.Outcome State Fault Refusal :=
  match decode w with
  | .ok i => exec i s
  | .error r => answer (.error (.illegalCommand r)) s

/-- One step. A read by the host sees the ports as the last command left them, and faults on a port that holds
no value (R24, R32). Reset goes before the command: a command that reset cuts has no response (R260). With
the strobe asserted the block executes the word on `cmd` once (R22); without it, it does nothing. Then the
host's next action is put on the pins. -/
def step (s : State) : Host.Outcome State Fault Refusal :=
  match readFault s with
  | some f => .fault f
  | none =>
    if s.rst then .next s.clearPorts.drive
    else if s.cmdValid then thenDrive (execWord s.cmd s)
    else .next s.drive

/-- The word placed on `cmd` with the strobe asserted, so that the next step executes it (log entry 2). -/
def State.withFetchWord (s : State) (nbits w : Nat) : State :=
  s.present (BitVec.ofNat 64 (w % 2 ^ nbits))

end Sys2Proof.Machine
end

