-- ==== Sys2Proof/Machine/Protocol.lean ====
section
/-! DEFINITION. The host's read request around the block (70_reset_and_hazards.md R262, R263, R266): a second
machine beside `step`, no part of the block's State (00_scope.md R5; log entry 9). The transport's and the
device's answers are inputs with no law (R225, K4). -/

namespace Sys2Proof.Machine

/-- The sample rate of a resolution, samples per second as a fraction (R72, R262): 3.75 is 15 over 4. -/
def sampleRate (res : Byte) : Option (Nat × Nat) :=
  match res.toNat with
  | 12 => some (240, 1)
  | 14 => some (60, 1)
  | 16 => some (15, 1)
  | 18 => some (15, 4)
  | _ => none

/-- The conversion delay in milliseconds (R262). -/
def convDelayMs (res : Byte) : Nat :=
  match sampleRate res with
  | some (num, den) => 1000 * den / num + 50
  | none => 500 + 50

/-- The states of one read request (R266). -/
inductive Phase where
  | idle
  | configuring
  | waiting
  | reading
  | decoding
  | done
  | failed
deriving DecidableEq, Repr

/-- `readChannel(address, ch, res, gain)` (R266). The bus address is the transport's alone (R41). -/
structure Request where
  address : Nat
  ch : Byte
  res : Byte
  gain : Byte
deriving DecidableEq, Repr

/-- What the transport answers to the request's write and to its read (R225, R266). -/
structure Transport where
  writeOk : Bool
  readBytes : Option Raw
deriving DecidableEq, Repr

/-- What the host does outside the block, in order. -/
inductive HostEvent where
  /-- a write transaction of one byte (R101). -/
  | write (address : Nat) (b : Byte)
  /-- the conversion delay, elapsed in full (R263). -/
  | delay (ms : Nat)
  /-- a 4-byte read transaction (R45). -/
  | read (address : Nat)
deriving DecidableEq, Repr

/-- Why a request ended in Failed (R225, R266). -/
inductive Failure where
  | configurationError
  | transportWriteFailure
  | transportReadFailure
deriving DecidableEq, Repr

/-- The host with the block it drives. -/
structure Driver where
  block : State
  phase : Phase
  req : Request
  transport : Transport
  /-- in Decoding the host issues CONVERT, or equivalently DECODE and then SCALE (R266). -/
  viaConvert : Bool
  /-- the payload length ENCFG returned (R266). -/
  nb : Count
  /-- the bytes of the read transaction (R266). -/
  raw : Raw
  /-- what the host has done outside the block, first event first. -/
  events : List HostEvent
  /-- the commands the host has issued to the block for this request, first command first. -/
  commands : List Instr
  /-- the caller's analog value (R266). -/
  analog : F64
  /-- the caller's diagnostic buffer (R266). -/
  diag : Snapshot
  /-- the request's `success`, once it has ended (R27, R266). -/
  ok : Option Bool
  /-- why it failed. -/
  failure : Option Failure
deriving DecidableEq, Repr

/-- The block's answer to one command that the host presents (R22). DESIGN CHOICE (log entry 13): R266 does not say what
a reset, or another action pending on the pins, does to a request in progress. The request here owns the pins:
presenting a command sets `rst` and `rd` to nothing and overwrites what `drive` put on the pins, so no reset and
no action of `inputs` reaches a request. -/
def issue (i : Instr) (block : State) : Option State :=
  match step (block.present (encode i)) with
  | .next t => some t
  | .fault _ => none
  | .refused _ => none

/-- The host issues a command of the request (R266). -/
def Driver.record (i : Instr) (d : Driver) : Driver := { d with commands := d.commands ++ [i] }

/-- Failed: the caller's value and buffer are left unmodified (R266). -/
def Driver.fail (why : Failure) (d : Driver) : Driver :=
  { d with phase := .failed, ok := some false, failure := some why }

/-- Done: the value and the snapshot go to the caller (R266). -/
def Driver.finish (v : F64) (snap : Snapshot) (d : Driver) : Driver :=
  { d with phase := .done, ok := some true, analog := v, diag := snap }

/-- Configuring: ENCFG, and its byte to the device; a command fault ends the request before any write (D26). -/
def Driver.configure (d : Driver) : Driver :=
  let i := Instr.encfg d.req.ch d.req.res d.req.gain
  match issue i d.block with
  | none => (d.record i).fail .configurationError
  | some t =>
    let d' := { d.record i with block := t }
    match t.outByte, t.outInt with
    | some b, some nb =>
      let d'' := { d' with nb := nb, events := d'.events ++ [HostEvent.write d.req.address b] }
      if d.transport.writeOk then { d'' with phase := .waiting } else d''.fail .transportWriteFailure
    | _, _ => d'.fail .configurationError

/-- Waiting: the delay elapses in full (R262, R263). -/
def Driver.wait (d : Driver) : Driver :=
  { d with phase := .reading, events := d.events ++ [HostEvent.delay (convDelayMs d.req.res)] }

/-- Reading: the 4-byte read transaction (R266). -/
def Driver.readDevice (d : Driver) : Driver :=
  let d' := { d with events := d.events ++ [HostEvent.read d.req.address] }
  match d.transport.readBytes with
  | some raw => { d' with phase := .decoding, raw := raw }
  | none => d'.fail .transportReadFailure

/-- Decoding by CONVERT (R266). -/
def Driver.decodeConvert (d : Driver) : Driver :=
  let i := Instr.convert d.req.gain d.req.res d.raw
  match issue i d.block with
  | none => (d.record i).fail .configurationError
  | some t =>
    let d' := { d.record i with block := t }
    match t.outF64, t.outSnap with
    | some v, some snap => d'.finish v snap
    | _, _ => d'.fail .configurationError

/-- The second half of decoding by DECODE and SCALE: the count that DECODE returned is scaled (R266). -/
def Driver.decodeThenScale (adj : Count) (snap : Snapshot) (d : Driver) : Driver :=
  let i := Instr.scale d.req.gain d.req.res adj
  match issue i d.block with
  | none => (d.record i).fail .configurationError
  | some t =>
    let d' := { d.record i with block := t }
    match t.outF64 with
    | some v => d'.finish v snap
    | none => d'.fail .configurationError

/-- Decoding by DECODE and then SCALE, with the payload length that ENCFG returned (R266). -/
def Driver.decodeScale (d : Driver) : Driver :=
  let i := Instr.decode (d.nb.setWidth 8) d.req.res d.raw
  match issue i d.block with
  | none => (d.record i).fail .configurationError
  | some t =>
    let d' := { d.record i with block := t }
    match t.outInt, t.outSnap with
    | some adj, some snap => d'.decodeThenScale adj snap
    | _, _ => d'.fail .configurationError

/-- One transition of the request (R266); Done and Failed are terminal. -/
def Driver.step (d : Driver) : Driver :=
  match d.phase with
  | .idle => { d with phase := .configuring }
  | .configuring => d.configure
  | .waiting => d.wait
  | .reading => d.readDevice
  | .decoding => if d.viaConvert then d.decodeConvert else d.decodeScale
  | .done => d
  | .failed => d

/-- The request run to its end: five transitions reach Done or Failed (R266). -/
def Driver.run (d : Driver) : Driver := d.step.step.step.step.step

/-- A request about to begin, with the caller's variables as they stand (R266). -/
def Driver.start (block : State) (req : Request) (tr : Transport) (viaConvert : Bool) (analog : F64)
    (diag : Snapshot) : Driver :=
  { block := block, phase := .idle, req := req, transport := tr, viaConvert := viaConvert, nb := 0
    raw := { b0 := 0, b1 := 0, b2 := 0, b3 := 0 }, events := [], commands := [], analog := analog, diag := diag
    ok := none, failure := none }

end Sys2Proof.Machine
end

