-- ==== Sys2Proof/Safety.lean ====
section
/-! DEFINITION. What a legal response is (10_state.md R23 to R25, 60_exceptions.md R220 to R223), what the
response ports show, and which runs are safe: those whose host reads no port. -/

namespace Sys2Proof.Machine

/-- The six output ports of a state (R23). -/
structure PortView where
  status : Option (BitVec 2)
  faultInfo : Option (BitVec 4)
  outByte : Option Byte
  outInt : Option Count
  outSnap : Option Snapshot
  outF64 : Option F64
deriving DecidableEq, Repr

/-- The output ports as the host finds them (R23). -/
def State.view (s : State) : PortView :=
  { status := s.status, faultInfo := s.faultInfo, outByte := s.outByte, outInt := s.outInt
    outSnap := s.outSnap, outF64 := s.outF64 }

/-- The state with these values on its output ports and everything else as it was. -/
def State.withPorts (v : PortView) (s : State) : State :=
  { s with
    status := v.status, faultInfo := v.faultInfo, outByte := v.outByte, outInt := v.outInt
    outSnap := v.outSnap, outF64 := v.outF64 }

/-- The ports after a successful command: OK, no fault information, and these results (R24). -/
def okView (byte : Option Byte) (int : Option Count) (snap : Option Snapshot) (f64 : Option F64) : PortView :=
  { status := some 0, faultInfo := none, outByte := byte, outInt := int, outSnap := snap, outF64 := f64 }

/-- The ports after a faulting command: no result port holds a value (R24, R220). -/
def faultView (status : BitVec 2) (info : BitVec 4) : PortView :=
  { status := some status, faultInfo := some info, outByte := none, outInt := none, outSnap := none, outF64 := none }

/-- The ports before the first command (R32). -/
def emptyView : PortView :=
  { status := none, faultInfo := none, outByte := none, outInt := none, outSnap := none, outF64 := none }

/-- The block is about to execute the word `w`: the strobe is asserted with `w` on `cmd`, reset is not, and the host
is not reading a port that holds no value (R22). -/
def State.ready (s : State) (w : CommandWord) : Prop :=
  s.cmd = w ∧ s.cmdValid = true ∧ s.rst = false ∧ readFault s = none

/-- No result port holds a value (R24). -/
def State.noResults (s : State) : Bool :=
  s.outByte.isNone && s.outInt.isNone && s.outSnap.isNone && s.outF64.isNone

/-- The result ports that hold a value are those of one row of the table of R25. -/
def State.resultRow (s : State) : Bool :=
  match s.outByte.isSome, s.outInt.isSome, s.outSnap.isSome, s.outF64.isSome with
  | true, true, false, false => true      -- ENCFG
  | false, true, true, false => true      -- DECODE
  | false, false, false, true => true     -- SCALE
  | false, true, true, true => true       -- CONVERT
  | true, false, false, false => true     -- GAINF, RESB
  | _, _, _, _ => false

/-- `status` and `fault_info` agree with each other and with the result ports: no value anywhere before the first
command (R32), R25 with OK, and only the codes of R222 and R223 with a fault (R220, R24). -/
def State.portsLegal (s : State) : Bool :=
  match s.status, s.faultInfo with
  | none, none => s.noResults
  | some st, none => st == 0 && s.resultRow
  | some st, some fi =>
    ((st == 1 && 1 ≤ fi.toNat && fi.toNat ≤ 5) || (st == 2 && 1 ≤ fi.toNat && fi.toNat ≤ 2)) && s.noResults
  | none, some _ => false

/-- A voltage is +0.0 or a normal number: never a NaN, an infinity, a subnormal or -0.0 (R182). -/
def voltageLegal (x : F64) : Bool :=
  x == 0 || (1 ≤ (x.extractLsb 62 52).toNat && (x.extractLsb 62 52).toNat ≤ 2046)

/-- A decoder's count and snapshot: the count in -131071..131071 (R147), `d[4]` its low byte and `d[5]` a legal
resolution (R145). -/
def decodedLegal (adj : Count) (snap : Snapshot) : Bool :=
  decide (-131071 ≤ adj.toInt) && decide (adj.toInt ≤ 131071)
    && snap.extractLsb 15 8 == adj.extractLsb 7 0
    && [12#8, 14#8, 16#8, 18#8].contains (snap.extractLsb 7 0)

/-- A configuration byte has start = 1 and conversionMode = 0, and comes with a payload length of 2 or 3
(R73, R102). -/
def configLegal (b : Byte) (nb : Count) : Bool :=
  b.extractLsb 7 7 == 1 && b.extractLsb 4 4 == 0 && (nb == 2 || nb == 3)

/-- The values on the result ports are values that some command delivers. -/
def State.valuesLegal (s : State) : Bool :=
  (match s.outByte, s.outInt with
    | some b, some nb => configLegal b nb
    | some b, none => [1#8, 2#8, 4#8, 8#8, 12#8, 14#8, 16#8, 18#8].contains b
    | none, _ => true)
  && (match s.outInt, s.outSnap with
    | some adj, some snap => decodedLegal adj snap
    | _, _ => true)
  && (match s.outF64 with
    | some x => voltageLegal x
    | none => true)

/-- The invariant of the block: the response on the ports is one that a command delivers, or there is none. -/
def State.responseLegal (s : State) : Bool := s.portsLegal && s.valuesLegal

/-- The host reads no port now or later. -/
def State.readsNothing (s : State) : Bool :=
  s.rd.isNone && s.inputs.all (fun a => match a with
    | .read _ => false
    | .command _ => true
    | .cutCommand _ => true
    | .reset => true)

/-- `n` steps, stopping at the first that is no next state. -/
def runSteps : Nat → State → Host.Outcome State Fault Refusal
  | 0, s => .next s
  | n + 1, s =>
    match step s with
    | .next t => runSteps n t
    | .fault f => .fault f
    | .refused r => .refused r

/-- A safe run of `n` steps ends in a next state. -/
def SafeRun (n : Nat) (s : State) : Prop := ∃ t, runSteps n s = .next t

end Sys2Proof.Machine
end

