-- ==== Sys2Proof/Certificates/Slice0/Reference.lean ====
section
/-! DEFINITION. The spec's pseudocode written a second time, over natural numbers and with the tables as
arithmetic, for the statements to compare the model with; and what it means to be the nearest binary64 number. -/

namespace Sys2Proof.Reference

open Sys2Proof.Machine

/-- The field `w[hi:lo]` as a number (00_scope.md R10). -/
def bits (w hi lo : Nat) : Nat := w / 2 ^ lo % 2 ^ (hi + 1 - lo)

/-- R9. -/
def legalRes (res : Nat) : Prop := res = 12 ∨ res = 14 ∨ res = 16 ∨ res = 18

/-- R9. -/
def legalGain (gain : Nat) : Prop := gain = 1 ∨ gain = 2 ∨ gain = 4 ∨ gain = 8

/-- The reserved field of the format of a defined op (R62 to R66). -/
def reserved (w : Nat) : Nat :=
  if bits w 63 60 = 1 then bits w 59 24
  else if bits w 63 60 ≤ 4 then bits w 59 48
  else bits w 59 8

/-- The payload length of a resolution (R102). -/
def payload (res : Nat) : Nat := if res = 18 then 3 else 2

/-- `rateCode(r) = (r - 12) / 2` (R72), and 0 for the legacy fallback (R103). -/
def rate (res : Nat) : Nat := if res = 12 ∨ res = 14 ∨ res = 16 ∨ res = 18 then (res - 12) / 2 else 0

/-- `gainCode(g) = log2(g)` (R71), and 0 for the legacy fallback (R103). -/
def gainLog (gain : Nat) : Nat := if gain = 1 ∨ gain = 2 ∨ gain = 4 ∨ gain = 8 then Nat.log2 gain else 0

/-- The configuration byte, field by field at its place (R70, R73). -/
def configByte (ch res gain : Nat) : Nat := 128 + (ch - 1) * 32 + rate res * 4 + gainLog gain

/-- The assembled count, with the masks as remainders (R141 to R143). -/
def count (res b0 b1 b2 : Nat) : Nat :=
  if res = 18 then b0 % 2 * 65536 + b1 * 256 + b2
  else (if res = 14 then b0 % 32 else if res = 12 then b0 % 8 else b0) * 256 + b1

/-- The adjusted count (R144). -/
def adjusted (res b0 b1 b2 : Nat) : Int :=
  if 128 ≤ b0 then (count res b0 b1 b2 : Int) - (2 ^ (res - 1) - 1) else count res b0 b1 b2

/-- The config echo (R76). -/
def echo (res b2 b3 : Nat) : Nat := if res = 18 then b3 else b2

/-- The snapshot as a number: `d[0..2]` are the count's three bytes, then the echo, the low byte of the adjusted
count and the resolution (R145). -/
def snap (res b0 b1 b2 b3 : Nat) : Nat :=
  count res b0 b1 b2 * 2 ^ 24 + echo res b2 b3 * 2 ^ 16 + (adjusted res b0 b1 b2 % 256).toNat * 2 ^ 8 + res

/-- `out.int` of a decoding command. -/
def intPort (res : Nat) (raw : Raw) : Count :=
  BitVec.ofInt 32 (adjusted res raw.b0.toNat raw.b1.toNat raw.b2.toNat)

/-- `out.snap` of a decoding command. -/
def snapPort (res : Nat) (raw : Raw) : Snapshot :=
  BitVec.ofNat 48 (snap res raw.b0.toNat raw.b1.toNat raw.b2.toNat raw.b3.toNat)

/-- `out.f64` of CONVERT: the adjusted count scaled (R184). -/
def voltPort (gain res : Byte) (raw : Raw) : F64 :=
  scaleCore (adjusted res.toNat raw.b0.toNat raw.b1.toNat raw.b2.toNat) res gain

/-- The response to a command word under LEGACY_FALLBACK: the pseudocode of R103, R110, R111, R140, R183 and R184,
with the priority of R224. The binary64 arithmetic is the model's `scaleCore`. -/
def view (legacy : Bool) (w : Nat) : PortView :=
  let op := bits w 63 60
  let res := if op = 1 then bits w 15 8 else bits w 39 32
  let gain := if op = 1 then bits w 7 0 else bits w 47 40
  let badRes := ¬ (res = 12 ∨ res = 14 ∨ res = 16 ∨ res = 18)
  let badGain := ¬ (gain = 1 ∨ gain = 2 ∨ gain = 4 ∨ gain = 8)
  let adj := adjusted res (bits w 31 24) (bits w 23 16) (bits w 15 8)
  let sn := BitVec.ofNat 48 (snap res (bits w 31 24) (bits w 23 16) (bits w 15 8) (bits w 7 0))
  if op = 0 ∨ 7 ≤ op then faultView 2 1
  else if reserved w ≠ 0 then faultView 2 2
  else if op = 1 then
    if bits w 23 16 < 1 ∨ 4 < bits w 23 16 then faultView 1 1
    else if badRes ∧ legacy = false then faultView 1 2
    else if badGain ∧ legacy = false then faultView 1 3
    else okView (some (BitVec.ofNat 8 (configByte (bits w 23 16) res gain))) (some (BitVec.ofNat 32 (payload res))) none none
  else if op = 2 then
    if badRes then faultView 1 2
    else if bits w 47 40 ≠ payload res then faultView 1 4
    else okView none (some (BitVec.ofInt 32 adj)) (some sn) none
  else if op = 3 then
    if badRes then faultView 1 2
    else if badGain then faultView 1 3
    else
      let c : Int := if bits w 31 0 < 2 ^ 31 then (bits w 31 0 : Int) else (bits w 31 0 : Int) - 2 ^ 32
      okView none none none (some (scaleCore c (BitVec.ofNat 8 res) (BitVec.ofNat 8 gain)))
  else if op = 4 then
    if badRes then faultView 1 2
    else if badGain then faultView 1 3
    else okView none (some (BitVec.ofInt 32 adj)) (some sn) (some (scaleCore adj (BitVec.ofNat 8 res) (BitVec.ofNat 8 gain)))
  else if 3 < bits w 7 0 then faultView 1 5
  else if op = 5 then okView (some (BitVec.ofNat 8 (2 ^ bits w 7 0))) none none none
  else okView (some (BitVec.ofNat 8 (12 + 2 * bits w 7 0))) none none none

/-- What the host does outside the block in a request whose write and read both take place (R263, R266). -/
def requestEvents (req : Request) : List HostEvent :=
  [HostEvent.write req.address (BitVec.ofNat 8 (configByte req.ch.toNat req.res.toNat req.gain.toNat)),
   HostEvent.delay (convDelayMs req.res), HostEvent.read req.address]

/-- Two responses that differ in nothing but the config echo: the snapshots agree but for `d[3]`, which is the echo
`e` in the one and `e'` in the other (R76). -/
def SameButEcho (t t' : State) (e e' : Byte) : Prop :=
  t.status = t'.status ∧ t.faultInfo = t'.faultInfo ∧ t.outByte = t'.outByte ∧ t.outInt = t'.outInt ∧
  t.outF64 = t'.outF64 ∧ t.outSnap.isSome = t'.outSnap.isSome ∧
  ∀ d d', t.outSnap = some d → t'.outSnap = some d' →
    d.extractLsb 23 16 = e ∧ d'.extractLsb 23 16 = e' ∧ d.extractLsb 47 24 = d'.extractLsb 47 24 ∧
    d.extractLsb 15 0 = d'.extractLsb 15 0

/-- The largest finite binary64 number. -/
def maxFinite : ℚ := (2 ^ 53 - 1) * 2 ^ 971

/-- The midpoint between the largest finite number and the next power of two: IEEE 754 rounds to infinity from here on
(log entry 7). -/
def overflowBound : ℚ := (2 ^ 54 - 1) * 2 ^ 970

/-- The pattern of the largest finite number with this sign bit. -/
def largest (neg : Bool) : F64 := if neg then 0xFFEFFFFFFFFFFFFF#64 else 0x7FEFFFFFFFFFFFFF#64

/-- The pattern of infinity with this sign bit. -/
def infinity (neg : Bool) : F64 := if neg then 0xFFF0000000000000#64 else 0x7FF0000000000000#64

/-- The pattern of zero with this sign bit. -/
def zero (neg : Bool) : F64 := if neg then 0x8000000000000000#64 else 0

/-- The pattern is an infinity. -/
def IsInf (x : F64) : Prop := x = infinity false ∨ x = infinity true

/-- The pattern is a NaN: the exponent field all ones and the fraction not zero. -/
def IsNaN (x : F64) : Prop := (x.extractLsb 62 52).toNat = 2047 ∧ (x.extractLsb 51 0).toNat ≠ 0

/-- `y` is a finite binary64 number nearest to `x`, and where another one is as near, `y` is the even one
(R13: round to nearest with ties to even). -/
def NearestEven (x : ℚ) (y : F64) : Prop :=
  ∃ v, f64Value y = some v ∧
    (∀ z vz, f64Value z = some vz → |v - x| ≤ |vz - x|) ∧
    (∀ z vz, f64Value z = some vz → vz ≠ v → |vz - x| = |v - x| → y.getLsbD 0 = false)

end Sys2Proof.Reference
end

