-- ==== Sys2Proof/WellFormed.lean ====
section
/-! DEFINITION. Which operand values are legal (00_scope.md R9). Every `Instr` has an encoding, because its
fields have exactly their widths; an illegal operand value is no illegal encoding but a ConfigurationError
of the command (30_encoding.md R69). So decoding never asks for well-formedness. -/

namespace Sys2Proof

/-- R9: the legal channels. -/
def legalChannels : List Byte := [1, 2, 3, 4]

/-- R9: the legal resolutions, in bits. -/
def legalResolutions : List Byte := [12, 14, 16, 18]

/-- R9: the legal gains. -/
def legalGains : List Byte := [1, 2, 4, 8]

/-- R9: the legal helper codes. -/
def legalCodes : List Byte := [0, 1, 2, 3]

/-- R9 and R75: the payload length is 2 or 3 bytes, and it is 3 exactly at 18 bits. -/
def legalPayload (nb res : Byte) : Bool :=
  (nb == 3 && res == 18) || (nb == 2 && res != 18)

/-- All operands of the command are legal: R9, with R75 for the payload length of DECODE. -/
def Instr.wellFormed : Instr → Bool
  | .encfg ch res gain => legalChannels.contains ch && legalResolutions.contains res && legalGains.contains gain
  | .decode nb res _ => legalResolutions.contains res && legalPayload nb res
  | .scale gain res _ => legalResolutions.contains res && legalGains.contains gain
  | .convert gain res _ => legalResolutions.contains res && legalGains.contains gain
  | .gainf code => legalCodes.contains code
  | .resb code => legalCodes.contains code

end Sys2Proof
end

