-- ==== Sys2Proof/Certificates/Slice0/Obligations.lean ====
section
/-! DEFINITION. The statements for the provers. The rules they cite are those of spec/. -/

open Sys2Proof Sys2Proof.Machine

/-! ## Encoding -/

/-- Words written out from the formats of R62 to R66 decode to the commands they stand for: one of each row. -/
def Obligations.WrittenOutWordsDecode : Prop :=
  decode 0x1000000000021002 = .ok (.encfg 2 16 2) ∧
  decode 0x2000021012348888 = .ok (.decode 2 16 { b0 := 0x12, b1 := 0x34, b2 := 0x88, b3 := 0x88 }) ∧
  decode 0x30000812FFFFFFFF = .ok (.scale 8 18 0xFFFFFFFF) ∧
  decode 0x400002101234C100 = .ok (.convert 2 16 { b0 := 0x12, b1 := 0x34, b2 := 0xC1, b3 := 0x00 }) ∧
  decode 0x5000000000000002 = .ok (.gainf 2) ∧
  decode 0x6000000000000003 = .ok (.resb 3)

/-- Decoding the word of any command gives the command back, legal operands or not. -/
def Obligations.DecodeOfEncodeIsIdentity : Prop := ∀ i : Instr, decode (encode i) = .ok i

/-- A word that decodes to a command is the word of that command: each command has one word. -/
def Obligations.EncodeOfDecodeIsIdentity : Prop :=
  ∀ (w : CommandWord) (i : Instr), decode w = .ok i → encode i = w

/-- The encoder gives the words of the assembler table (R81), written with shifts and ors on 64 bits. -/
def Obligations.EncodeIsTheAssemblerWord : Prop :=
  (∀ ch res gain : Byte, encode (.encfg ch res gain) =
    (0x1#64 <<< 60) ||| (ch.setWidth 64 <<< 16) ||| (res.setWidth 64 <<< 8) ||| gain.setWidth 64) ∧
  (∀ (nb res : Byte) (r : Raw), encode (.decode nb res r) =
    (0x2#64 <<< 60) ||| (nb.setWidth 64 <<< 40) ||| (res.setWidth 64 <<< 32)
      ||| (r.b0 ++ r.b1 ++ r.b2 ++ r.b3).setWidth 64) ∧
  (∀ (gain res : Byte) (count : Count), encode (.scale gain res count) =
    (0x3#64 <<< 60) ||| (gain.setWidth 64 <<< 40) ||| (res.setWidth 64 <<< 32) ||| count.setWidth 64) ∧
  (∀ (gain res : Byte) (r : Raw), encode (.convert gain res r) =
    (0x4#64 <<< 60) ||| (gain.setWidth 64 <<< 40) ||| (res.setWidth 64 <<< 32)
      ||| (r.b0 ++ r.b1 ++ r.b2 ++ r.b3).setWidth 64) ∧
  (∀ code : Byte, encode (.gainf code) = (0x5#64 <<< 60) ||| code.setWidth 64) ∧
  (∀ code : Byte, encode (.resb code) = (0x6#64 <<< 60) ||| code.setWidth 64)

/-- R68: a word whose op is 0x0 or 0x7 to 0xF, and no other, is rejected as RESERVED_OP, and a step that executes
such a word raises IllegalCommand(RESERVED_OP) (status 2, fault_info 1) and writes no result port. -/
def Obligations.ReservedOpIsIllegal : Prop :=
  (∀ w : CommandWord, decode w = .error .reservedOp ↔
    (Reference.bits w.toNat 63 60 = 0 ∨ 7 ≤ Reference.bits w.toNat 63 60)) ∧
  (∀ (s : State) (w : CommandWord), s.ready w →
    (Reference.bits w.toNat 63 60 = 0 ∨ 7 ≤ Reference.bits w.toNat 63 60) →
    ∃ t, step s = .next t ∧ t.view = faultView 2 1 ∧ t.params = s.params)

/-- R69: a word with a defined op is rejected, as RESERVED_BITS, exactly when its format's reserved field is not zero,
whatever its operand values; the step then raises IllegalCommand(RESERVED_BITS) (status 2, fault_info 2). -/
def Obligations.ReservedBitsAreIllegal : Prop :=
  (∀ w : CommandWord, 1 ≤ Reference.bits w.toNat 63 60 → Reference.bits w.toNat 63 60 ≤ 6 →
    (Reference.reserved w.toNat ≠ 0 → decode w = .error .reservedBits) ∧
    (Reference.reserved w.toNat = 0 → ∃ i, decode w = .ok i)) ∧
  (∀ (s : State) (w : CommandWord), s.ready w →
    1 ≤ Reference.bits w.toNat 63 60 → Reference.bits w.toNat 63 60 ≤ 6 → Reference.reserved w.toNat ≠ 0 →
    ∃ t, step s = .next t ∧ t.view = faultView 2 2 ∧ t.params = s.params)

/-- R82: DECODE.A expands with the payload length of a legal resolution, and the DECODE completes; for any other
resolution it expands with 2, and the DECODE raises ConfigurationError(RESOLUTION). -/
def Obligations.DecodeAExpands : Prop :=
  ∀ (raw : Raw) (res : Byte) (s : State),
    (Reference.legalRes res.toNat →
      expandDecodeA raw res = .decode (BitVec.ofNat 8 (Reference.payload res.toNat)) res raw ∧
      ∃ t, exec (expandDecodeA raw res) s = .next t ∧ t.status = some 0) ∧
    (¬ Reference.legalRes res.toNat →
      expandDecodeA raw res = .decode 2 res raw ∧
      exec (expandDecodeA raw res) s = .next (s.withPorts (faultView 1 2)))

/-! ## The step -/

/-- When the word on `cmd` decodes to a command, the step is that command's `exec`, which answers a next state, and after
it the host's next action is put on the pins; `withFetchWord` makes any state ready for its word. (The step as one
assertion of the strobe, and the host's actions as a list, are the model's choice, log entries 1 and 2.) -/
def Obligations.StepRunsTheDecodedCommand : Prop :=
  (∀ (s : State) (w : CommandWord) (i : Instr), s.ready w → decode w = .ok i →
    ∃ t, exec i s = .next t ∧ step s = .next t.drive) ∧
  (∀ (s : State) (w : CommandWord), (s.withFetchWord 64 w.toNat).ready w)

/-- The block executes a word once for each assertion of the strobe: a step with no strobe and no reset keeps the six
ports and the parameters, whatever the host does next, unless the host reads a port that holds no value; and when
the host has nothing further to do, the state after a step has no strobe, no reset and no read, and further steps
leave it as it is (log entries 1 and 2). -/
def Obligations.OneExecutionPerStrobe : Prop :=
  (∀ s : State, s.cmdValid = false → s.rst = false → readFault s = none →
    ∃ t, step s = .next t ∧ t.view = s.view ∧ t.params = s.params) ∧
  ∀ s t : State, s.inputs = [] → step s = .next t →
    t.cmdValid = false ∧ t.rst = false ∧ t.rd = none ∧ t.inputs = [] ∧ step t = .next t

/-- After reset every output port holds no value and LEGACY_FALLBACK keeps its value, whatever the block was doing (R32);
a read of any port then faults (R32); and the machine's own reset state is such a state with the default parameter
(R6). The reset and the read as fields of State are the model's (log entry 3), and that inside one step the read
goes before the reset and the reset before the command is the model's choice (log entry 4). -/
def Obligations.ResetLeavesNoValues : Prop :=
  (∀ s : State, s.rst = true → readFault s = none →
    ∃ t, step s = .next t ∧ t.view = emptyView ∧ t.params = s.params) ∧
  (∀ (s : State) (p : Port), s.view = emptyView → s.rd = some p → step s = .fault (.portHoldsNoValue p)) ∧
  State.reset.view = emptyView ∧ State.reset.params.legacyFallback = false

/-- A command that reset cuts short has no response, and when the host issues it again after the reset it gets the
response that the uncut command would have got. (That a step takes the reset before the command is the model's
choice, log entry 4.) -/
def Obligations.CutCommandHasNoResponse : Prop :=
  ∀ (s : State) (w : CommandWord), s.ready w →
    ∃ t u, step { s with rst := true } = .next t ∧ t.view = emptyView ∧
      step s = .next u ∧ ∃ v, step (t.present w) = .next v ∧ v.view = u.view

/-- A host read faults exactly when the port holds no value, and a read of a port that holds a value stops nothing:
the step is the step without the read, which keeps the six ports and the parameters where neither strobe nor reset is
asserted (that the host's read is part of a step is the model's choice, log entry 4). -/
def Obligations.ReadFaultsExactlyOnNoValue : Prop :=
  ∀ (s : State) (p : Port), s.rd = some p →
    (s.port p = none → step s = .fault (.portHoldsNoValue p)) ∧
    (∀ v, s.port p = some v → readPort p s = .ok v ∧ step s = step { s with rd := none } ∧
      (s.cmdValid = false → s.rst = false → ∃ t, step s = .next t ∧ t.view = s.view ∧ t.params = s.params))

/-- A step never refuses, and it faults only where the host reads a port that holds no value: every command and every
illegal word ends in a next state (log entry 4). -/
def Obligations.OnlyReadsOfNoValueStop : Prop :=
  ∀ s : State, (∃ t, step s = .next t) ∨
    (∃ p, s.rd = some p ∧ s.port p = none ∧ step s = .fault (.portHoldsNoValue p))

/-- Every run whose host reads no port is safe, at any length and from any state (log entries 2 and 4). -/
def Obligations.RunsWithoutReadsAreSafe : Prop :=
  ∀ (n : Nat) (s : State), s.readsNothing = true → SafeRun n s

/-- The whole command map at once: from any state, the response to any of the 2^64 words is the one the spec's
pseudocode gives, fault priority included, and the parameters do not change. -/
def Obligations.EveryWordGetsItsSpecifiedResponse : Prop :=
  ∀ (s : State) (w : CommandWord), s.ready w →
    ∃ t, step s = .next t ∧ t.view = Reference.view s.params.legacyFallback w.toNat ∧ t.params = s.params

/-! ## Frames and the response -/

/-- The frame of every command: only the output ports change. The parameters (LEGACY_FALLBACK among them), the input
pins and the host's later actions are as before. -/
def Obligations.CommandsChangeOnlyThePorts : Prop :=
  ∀ (i : Instr) (s : State), ∃ t, exec i s = .next t ∧ t = s.withPorts t.view ∧
    t.params = s.params ∧ t.cmd = s.cmd ∧ t.cmdValid = s.cmdValid ∧ t.rst = s.rst ∧ t.rd = s.rd ∧ t.inputs = s.inputs

/-- R25: which result ports each command writes with `status = OK`; the others hold no value. -/
def Obligations.ResultPortsByCommand : Prop :=
  ∀ (i : Instr) (s t : State), exec i s = .next t → t.status = some 0 →
    match i with
    | .encfg _ _ _ => t.outByte.isSome ∧ t.outInt.isSome ∧ t.outSnap = none ∧ t.outF64 = none
    | .decode _ _ _ => t.outByte = none ∧ t.outInt.isSome ∧ t.outSnap.isSome ∧ t.outF64 = none
    | .scale _ _ _ => t.outByte = none ∧ t.outInt = none ∧ t.outSnap = none ∧ t.outF64.isSome
    | .convert _ _ _ => t.outByte = none ∧ t.outInt.isSome ∧ t.outSnap.isSome ∧ t.outF64.isSome
    | .gainf _ => t.outByte.isSome ∧ t.outInt = none ∧ t.outSnap = none ∧ t.outF64 = none
    | .resb _ => t.outByte.isSome ∧ t.outInt = none ∧ t.outSnap = none ∧ t.outF64 = none

/-- A command ends in OK with no fault information, or in a ConfigurationError with a code of R222 that the command can
raise and with no value on any result port. -/
def Obligations.FaultsLeaveNoResult : Prop :=
  ∀ (i : Instr) (s t : State), exec i s = .next t →
    (t.status = some 0 ∧ t.faultInfo = none) ∨
    (t.status = some 1 ∧ t.noResults = true ∧ ∃ fi, t.faultInfo = some fi ∧
      match i with
      | .encfg _ _ _ => fi = 1 ∨ (s.params.legacyFallback = false ∧ (fi = 2 ∨ fi = 3))
      | .decode _ _ _ => fi = 2 ∨ fi = 4
      | .scale _ _ _ => fi = 2 ∨ fi = 3
      | .convert _ _ _ => fi = 2 ∨ fi = 3
      | .gainf _ => fi = 5
      | .resb _ => fi = 5)

/-- R26: the response depends on the command word and the parameters alone, on no earlier command. -/
def Obligations.ResponseDependsOnWordAlone : Prop :=
  ∀ (s₁ s₂ : State) (w : CommandWord), s₁.params = s₂.params → s₁.ready w → s₂.ready w →
    ∃ t₁ t₂, step s₁ = .next t₁ ∧ step s₂ = .next t₂ ∧ t₁.view = t₂.view

/-- LEGACY_FALLBACK changes no command but ENCFG. -/
def Obligations.LegacyFallbackConcernsEncfgAlone : Prop :=
  ∀ (i : Instr) (s : State) (b : Bool), (∀ ch res gain, i ≠ .encfg ch res gain) →
    ∃ t u, exec i s = .next t ∧ exec i { s with params := { s.params with legacyFallback := b } } = .next u ∧
      t.view = u.view

/-- Over a run: after any sequence of words, legal, faulting or illegal, the ports show what the last word alone
gives, and the parameters are as at the start (the host's words as a list of actions are the model's choice, log
entry 2). -/
def Obligations.LastCommandDecidesTheResponse : Prop :=
  ∀ (ws : List CommandWord) (w : CommandWord) (s : State), s.cmdValid = false → s.rst = false → s.rd = none →
    s.inputs = ws.map Input.command ++ [Input.command w] →
    ∃ t, runSteps (ws.length + 2) s = .next t ∧ t.view = Reference.view s.params.legacyFallback w.toNat ∧
      t.params = s.params

/-- Every step keeps a legal response on the ports: the codes, the result ports and the values are ones that some
command delivers. -/
def Obligations.StepKeepsResponseLegal : Prop :=
  ∀ s t : State, s.responseLegal = true → step s = .next t → t.responseLegal = true

/-- The response is legal after reset: there is none. -/
def Obligations.ResetResponseIsLegal : Prop := ∀ p : Params, (State.resetWith p).responseLegal = true

/-! ## Configuration encoder and helpers -/

/-- ENCFG completes on legal operands under both values of LEGACY_FALLBACK: the byte has start 1, channel - 1, mode 0,
the rate code and the gain code at their places, the payload length is 3 at 18 bits and 2 otherwise, and nothing
but the ports changes. -/
def Obligations.EncfgPacksLegalOperands : Prop :=
  ∀ (ch res gain : Byte) (s : State), 1 ≤ ch.toNat → ch.toNat ≤ 4 → Reference.legalRes res.toNat →
    Reference.legalGain gain.toNat →
    exec (.encfg ch res gain) s = .next (s.withPorts (okView
      (some (BitVec.ofNat 8 (128 + (ch.toNat - 1) * 32 + (res.toNat - 12) / 2 * 4 + Nat.log2 gain.toNat)))
      (some (if res.toNat = 18 then 3 else 2)) none none))

/-- ENCFG's faults in their order: CHANNEL under both values of LEGACY_FALLBACK, then RESOLUTION, then GAIN, these two
only with `LEGACY_FALLBACK = false`. -/
def Obligations.EncfgFaultsInOrder : Prop :=
  ∀ (ch res gain : Byte) (s : State),
    ((ch.toNat < 1 ∨ 4 < ch.toNat) → exec (.encfg ch res gain) s = .next (s.withPorts (faultView 1 1))) ∧
    (1 ≤ ch.toNat → ch.toNat ≤ 4 → s.params.legacyFallback = false →
      (¬ Reference.legalRes res.toNat → exec (.encfg ch res gain) s = .next (s.withPorts (faultView 1 2))) ∧
      (Reference.legalRes res.toNat → ¬ Reference.legalGain gain.toNat →
        exec (.encfg ch res gain) s = .next (s.withPorts (faultView 1 3))))

/-- With `LEGACY_FALLBACK = true` ENCFG completes for every resolution and gain: outside its set a resolution is sent
as rate code 00 with payload length 2, and a gain as gain code 00. -/
def Obligations.EncfgLegacyFallback : Prop :=
  ∀ (ch res gain : Byte) (s : State), 1 ≤ ch.toNat → ch.toNat ≤ 4 → s.params.legacyFallback = true →
    exec (.encfg ch res gain) s = .next (s.withPorts (okView
      (some (BitVec.ofNat 8 (Reference.configByte ch.toNat res.toNat gain.toNat)))
      (some (if res.toNat = 18 then 3 else 2)) none none))

/-- R104: with `LEGACY_FALLBACK = false` the fields of a configuration byte read back to the operands, through RESB and
GAINF for the two codes, and different operands give different bytes; with `LEGACY_FALLBACK = true` an out-of-set
resolution or gain shares its byte with resolution 12 or gain 1; and the gain codes are onto {0, 1, 2, 3}. -/
def Obligations.EncfgFieldsReadBack : Prop :=
  (∀ (ch res gain : Byte) (s t : State) (b : Byte), s.params.legacyFallback = false →
    exec (.encfg ch res gain) s = .next t → t.outByte = some b →
    b.getLsbD 7 = true ∧ b.getLsbD 4 = false ∧ (b.extractLsb 6 5).toNat + 1 = ch.toNat ∧
    (∃ u, exec (.resb ((b.extractLsb 3 2).setWidth 8)) s = .next u ∧ u.outByte = some res) ∧
    (∃ u, exec (.gainf ((b.extractLsb 1 0).setWidth 8)) s = .next u ∧ u.outByte = some gain)) ∧
  (∀ (ch res gain ch' res' gain' : Byte) (s t t' : State) (b : Byte), s.params.legacyFallback = false →
    exec (.encfg ch res gain) s = .next t → exec (.encfg ch' res' gain') s = .next t' →
    t.outByte = some b → t'.outByte = some b → ch = ch' ∧ res = res' ∧ gain = gain') ∧
  (∀ (ch res gain : Byte) (s t t' : State), s.params.legacyFallback = true →
    (¬ Reference.legalRes res.toNat → exec (.encfg ch res gain) s = .next t →
      exec (.encfg ch 12 gain) s = .next t' → t.outByte = t'.outByte) ∧
    (¬ Reference.legalGain gain.toNat → exec (.encfg ch res gain) s = .next t →
      exec (.encfg ch res 1) s = .next t' → t.outByte = t'.outByte)) ∧
  (∀ (c : BitVec 2) (s : State), ∃ gain t b, Reference.legalGain gain ∧
    exec (.encfg 1 12 (BitVec.ofNat 8 gain)) s = .next t ∧ t.outByte = some b ∧ b.extractLsb 1 0 = c)

/-- R73: the configuration byte of a legal triple is the or of its shifted fields; bit 7 is set and bit 4 clear; and
the bytes of the legal triples are exactly the 64 bytes in 0x80 to 0xEF whose bit 4 is clear, one for each triple. -/
def Obligations.ConfigurationBytesOfLegalTriples : Prop :=
  (∀ (ch res gain : Byte) (s : State), legalChannels.contains ch → legalResolutions.contains res →
    legalGains.contains gain → ∃ t b, exec (.encfg ch res gain) s = .next t ∧ t.outByte = some b ∧
      b = 0x80 ||| ((ch - 1) <<< 5) ||| (0 <<< 4) ||| (((res - 12) >>> 1) <<< 2)
        ||| (if gain = 1 then 0 else if gain = 2 then 1 else if gain = 4 then 2 else 3) ∧
      b.getLsbD 7 = true ∧ b.getLsbD 4 = false) ∧
  (∀ (b : Byte) (s : State), 0x80 ≤ b.toNat → b.toNat ≤ 0xEF → b.getLsbD 4 = false →
    ∃ ch res gain t, legalChannels.contains ch ∧ legalResolutions.contains res ∧ legalGains.contains gain ∧
      exec (.encfg ch res gain) s = .next t ∧ t.outByte = some b ∧
      ∀ ch' res' gain' t', legalChannels.contains ch' → legalResolutions.contains res' → legalGains.contains gain' →
        exec (.encfg ch' res' gain') s = .next t' → t'.outByte = some b → ch' = ch ∧ res' = res ∧ gain' = gain)

/-- GAINF gives 1, 2, 4 or 8 for the codes 0 to 3 and raises ConfigurationError(CODE) for every other code, under both
values of LEGACY_FALLBACK. -/
def Obligations.GainfMapsCodes : Prop :=
  ∀ (code : Byte) (s : State),
    (code.toNat ≤ 3 → exec (.gainf code) s =
      .next (s.withPorts (okView (some (BitVec.ofNat 8 (2 ^ code.toNat))) none none none))) ∧
    (3 < code.toNat → exec (.gainf code) s = .next (s.withPorts (faultView 1 5)))

/-- RESB gives 12, 14, 16 or 18 for the codes 0 to 3 and raises ConfigurationError(CODE) for every other code, under
both values of LEGACY_FALLBACK. -/
def Obligations.ResbMapsCodes : Prop :=
  ∀ (code : Byte) (s : State),
    (code.toNat ≤ 3 → exec (.resb code) s =
      .next (s.withPorts (okView (some (BitVec.ofNat 8 (12 + 2 * code.toNat))) none none none))) ∧
    (3 < code.toNat → exec (.resb code) s = .next (s.withPorts (faultView 1 5)))

/-- R112: GAINF and RESB invert the encoder's code functions, and each code function is a bijection from its legal set
onto the four codes. -/
def Obligations.HelpersInvertTheCodes : Prop :=
  (∀ (g : Byte) (s : State), legalGains.contains g → ∃ c t, gainCode g = some c ∧
    exec (.gainf (c.setWidth 8)) s = .next t ∧ t.outByte = some g) ∧
  (∀ (r : Byte) (s : State), legalResolutions.contains r → ∃ c t, rateCode r = some c ∧
    exec (.resb (c.setWidth 8)) s = .next t ∧ t.outByte = some r) ∧
  (∀ (c : BitVec 2) (s : State), ∃ t g, exec (.gainf (c.setWidth 8)) s = .next t ∧ t.outByte = some g ∧
    legalGains.contains g ∧ gainCode g = some c) ∧
  (∀ (c : BitVec 2) (s : State), ∃ t r, exec (.resb (c.setWidth 8)) s = .next t ∧ t.outByte = some r ∧
    legalResolutions.contains r ∧ rateCode r = some c)

/-! ## Response decoder -/

/-- DECODE completes on legal operands for every raw response: the count is assembled from the masked bytes, adjusted by
the sign rule and delivered without overflow, the snapshot holds the working bytes, the low byte and the
resolution, and nothing but the ports changes (R141 to R145). -/
def Obligations.DecodeDeliversCountAndSnapshot : Prop :=
  ∀ (nb res : Byte) (raw : Raw) (s : State), Reference.legalRes res.toNat → nb.toNat = Reference.payload res.toNat →
    exec (.decode nb res raw) s = .next (s.withPorts (okView none
      (some (Reference.intPort res.toNat raw)) (some (Reference.snapPort res.toNat raw)) none)) ∧
    (Reference.intPort res.toNat raw).toInt =
      Reference.adjusted res.toNat raw.b0.toNat raw.b1.toNat raw.b2.toNat

/-- R146: a word of DECODE with zero reserved bits and legal operands succeeds for every one of the 2^32 raw
responses, and DECODE's only faults come from operands outside that domain. -/
def Obligations.DecodeAlwaysSucceedsOnLegalOperands : Prop :=
  ∀ (s : State) (nb res : Byte) (raw : Raw),
    ((legalResolutions.contains res ∧ nb.toNat = Reference.payload res.toNat) →
      s.ready (encode (.decode nb res raw)) → ∃ t, step s = .next t ∧ t.status = some 0) ∧
    (∀ t, exec (.decode nb res raw) s = .next t → t.status ≠ some 0 →
      ¬ (legalResolutions.contains res ∧ nb.toNat = Reference.payload res.toNat))

/-- DECODE's faults in their order: RESOLUTION for a resolution outside its set, then NBYTES for a payload length that is
not the resolution's, under both values of LEGACY_FALLBACK. -/
def Obligations.DecodeFaultsInOrder : Prop :=
  ∀ (nb res : Byte) (raw : Raw) (s : State),
    (¬ Reference.legalRes res.toNat → exec (.decode nb res raw) s = .next (s.withPorts (faultView 1 2))) ∧
    (Reference.legalRes res.toNat → nb.toNat ≠ Reference.payload res.toNat →
      exec (.decode nb res raw) s = .next (s.withPorts (faultView 1 4)))

/-- R147: the ranges of the assembled and the adjusted count for each resolution and each sign of the first byte. -/
def Obligations.AdjustedCountRanges : Prop :=
  ∀ (nb res : Byte) (raw : Raw) (s t : State) (v : Count), exec (.decode nb res raw) s = .next t → t.outInt = some v →
    let c := assembledCount (workingBuffer nb.toNat res raw)
    let a := v.toInt
    a = adjustedCount res raw.b0 c ∧
    (res = 18 → c ≤ 131071 ∧ (raw.b0.toNat < 0x80 → 0 ≤ a ∧ a ≤ 131071) ∧ (0x80 ≤ raw.b0.toNat → -131071 ≤ a ∧ a ≤ 1)) ∧
    (res = 16 → c = raw.b0.toNat * 256 + raw.b1.toNat ∧ c ≤ 65535 ∧ (raw.b0.toNat < 0x80 → c ≤ 0x7FFF) ∧
      (0x80 ≤ raw.b0.toNat → 0x8000 ≤ c ∧ a = (c : Int) - 32767) ∧ (raw.b0.toNat < 0x80 → 0 ≤ a ∧ a ≤ 32767) ∧ (0x80 ≤ raw.b0.toNat → 1 ≤ a ∧ a ≤ 32768)) ∧
    (res = 14 → c ≤ 8191 ∧ (raw.b0.toNat < 0x80 → 0 ≤ a ∧ a ≤ 8191) ∧ (0x80 ≤ raw.b0.toNat → -8191 ≤ a ∧ a ≤ 0)) ∧
    (res = 12 → c ≤ 2047 ∧ (raw.b0.toNat < 0x80 → 0 ≤ a ∧ a ≤ 2047) ∧ (0x80 ≤ raw.b0.toNat → -2047 ≤ a ∧ a ≤ 0)) ∧
    -131071 ≤ a ∧ a ≤ 131071

/-- R76: the config echo, `raw[3]` in 3-byte mode and `raw[2]` in 2-byte mode, reaches snapshot byte `d[3]` and nothing
else, for DECODE and for CONVERT. -/
def Obligations.EchoReachesOnlyTheSnapshot : Prop :=
  ∀ (nb res gain e e' b0 b1 b2 : Byte) (s t t' : State),
    (exec (.decode nb 18 ⟨b0, b1, b2, e⟩) s = .next t → exec (.decode nb 18 ⟨b0, b1, b2, e'⟩) s = .next t' →
      Reference.SameButEcho t t' e e') ∧
    (res ≠ 18 → exec (.decode nb res ⟨b0, b1, e, b2⟩) s = .next t →
      exec (.decode nb res ⟨b0, b1, e', b2⟩) s = .next t' → Reference.SameButEcho t t' e e') ∧
    (exec (.convert gain 18 ⟨b0, b1, b2, e⟩) s = .next t → exec (.convert gain 18 ⟨b0, b1, b2, e'⟩) s = .next t' →
      Reference.SameButEcho t t' e e') ∧
    (res ≠ 18 → exec (.convert gain res ⟨b0, b1, e, b2⟩) s = .next t →
      exec (.convert gain res ⟨b0, b1, e', b2⟩) s = .next t' → Reference.SameButEcho t t' e e')

/-- In 2-byte mode `raw[3]` changes nothing in the response, for DECODE and for CONVERT. -/
def Obligations.FourthByteIsIgnoredInTwoByteMode : Prop :=
  ∀ (res gain nb x x' b0 b1 b2 : Byte) (s : State), res ≠ 18 →
    exec (.decode nb res ⟨b0, b1, b2, x⟩) s = exec (.decode nb res ⟨b0, b1, b2, x'⟩) s ∧
    exec (.convert gain res ⟨b0, b1, b2, x⟩) s = exec (.convert gain res ⟨b0, b1, b2, x'⟩) s

/-! ## Voltage scaler -/

/-- R7: VREF is the binary64 number nearest to 2.048, and it is 1152921504606847 / 562949953421312. -/
def Obligations.VrefIsNearestTo2048Millivolts : Prop :=
  vref = 0x4000624DD2F1A9FC#64 ∧ f64Value vref = some (1152921504606847 / 562949953421312) ∧
  Reference.NearestEven (2048 / 1000) vref

/-- `f64(i)` is exact for every integer of magnitude below 2^53. -/
def Obligations.IntegersConvertExactly : Prop :=
  ∀ i : Int, i.natAbs < 2 ^ 53 → f64Value (f64 i) = some (i : ℚ)

/-- `mulRN` is correctly rounded without overflow (the rest of IEEE 754 multiplication is
MultiplicationOverflowsAndSpecials): for finite operands whose exact product does not pass the largest finite number, the
result is the binary64 number nearest to the product, the even one at a tie, and its sign is the product's. -/
def Obligations.MultiplicationRoundsToNearestEven : Prop :=
  ∀ (a b : F64) (x y : ℚ), f64Value a = some x → f64Value b = some y → |x * y| ≤ Reference.maxFinite →
    Reference.NearestEven (x * y) (mulRN a b) ∧ (mulRN a b).msb = (a.msb ^^ b.msb)

/-- `divRN` is correctly rounded without overflow (the rest of IEEE 754 division is DivisionOverflowsAndSpecials), for finite operands, a divisor that is not zero, and a quotient that does not pass the
largest finite number. -/
def Obligations.DivisionRoundsToNearestEven : Prop :=
  ∀ (a b : F64) (x y : ℚ), f64Value a = some x → f64Value b = some y → y ≠ 0 → |x / y| ≤ Reference.maxFinite →
    Reference.NearestEven (x / y) (divRN a b) ∧ (divRN a b).msb = (a.msb ^^ b.msb)

/-- The rest of IEEE 754 multiplication (log entries 7 and 8): a product of finite operands past the largest finite number
gives that number below the overflow bound and infinity from it on; an infinity times a number that is not zero is an
infinity; each has the product's sign; an infinity times zero, and any product with a NaN, is a NaN. -/
def Obligations.MultiplicationOverflowsAndSpecials : Prop :=
  (∀ (a b : F64) (x y : ℚ), f64Value a = some x → f64Value b = some y →
    (Reference.maxFinite < |x * y| → |x * y| < Reference.overflowBound →
      mulRN a b = Reference.largest (a.msb ^^ b.msb)) ∧
    (Reference.overflowBound ≤ |x * y| → mulRN a b = Reference.infinity (a.msb ^^ b.msb))) ∧
  (∀ a b : F64, Reference.IsInf a →
    (Reference.IsInf b ∨ (∃ y, f64Value b = some y ∧ y ≠ 0) →
      mulRN a b = Reference.infinity (a.msb ^^ b.msb) ∧ mulRN b a = Reference.infinity (a.msb ^^ b.msb)) ∧
    (f64Value b = some 0 → Reference.IsNaN (mulRN a b) ∧ Reference.IsNaN (mulRN b a))) ∧
  (∀ a b : F64, Reference.IsNaN a → Reference.IsNaN (mulRN a b) ∧ Reference.IsNaN (mulRN b a))

/-- The rest of IEEE 754 division (log entries 7 and 8): overflow as for multiplication; a finite number that is not zero
over zero, and an infinity over a finite number, is an infinity; a finite number over an infinity is zero; each has the
quotient's sign; zero over zero, infinity over infinity, and any quotient with a NaN, is a NaN. -/
def Obligations.DivisionOverflowsAndSpecials : Prop :=
  (∀ (a b : F64) (x y : ℚ), f64Value a = some x → f64Value b = some y →
    (y ≠ 0 → Reference.maxFinite < |x / y| → |x / y| < Reference.overflowBound →
      divRN a b = Reference.largest (a.msb ^^ b.msb)) ∧
    (y ≠ 0 → Reference.overflowBound ≤ |x / y| → divRN a b = Reference.infinity (a.msb ^^ b.msb)) ∧
    (y = 0 → x ≠ 0 → divRN a b = Reference.infinity (a.msb ^^ b.msb)) ∧
    (y = 0 → x = 0 → Reference.IsNaN (divRN a b))) ∧
  (∀ a b : F64, Reference.IsInf a →
    (∀ y, f64Value b = some y → divRN a b = Reference.infinity (a.msb ^^ b.msb) ∧
      divRN b a = Reference.zero (a.msb ^^ b.msb)) ∧
    (Reference.IsInf b → Reference.IsNaN (divRN a b))) ∧
  (∀ a b : F64, Reference.IsNaN a → Reference.IsNaN (divRN a b) ∧ Reference.IsNaN (divRN b a))

/-- R180: the LSB of each resolution, computed in the order the spec writes, its bit pattern, the decimal it is nearest
to, and its exact value `VREF * 2^(1 - res)`. -/
def Obligations.LsbPatterns : Prop :=
  lsb 12 = 0x3F50624DD2F1A9FC#64 ∧ lsb 14 = 0x3F30624DD2F1A9FC#64 ∧
  lsb 16 = 0x3F10624DD2F1A9FC#64 ∧ lsb 18 = 0x3EF0624DD2F1A9FC#64 ∧
  Reference.NearestEven (1 / 1000) (lsb 12) ∧ Reference.NearestEven (25 / 100000) (lsb 14) ∧
  Reference.NearestEven (625 / 10000000) (lsb 16) ∧ Reference.NearestEven (15625 / 1000000000) (lsb 18) ∧
  ∀ res : Byte, Reference.legalRes res.toNat → ∀ v, f64Value vref = some v →
    lsb res = divRN (mulRN (f64 2) vref) (f64 (2 ^ res.toNat)) ∧
    f64Value (mulRN (f64 2) vref) = some (2 * v) ∧
    f64Value (lsb res) = some (v * 2 ^ (1 - (res.toNat : Int)))

/-- SCALE completes on legal operands for every 32-bit count: it delivers `scaleCore` of the signed count, whose value
is the rounded product of count and VREF, scaled exactly by `2^(1 - res)` and divided exactly by the gain. -/
def Obligations.ScaleRoundsOnce : Prop :=
  ∀ (gain res : Byte) (count : Count) (s : State), Reference.legalRes res.toNat → Reference.legalGain gain.toNat →
    exec (.scale gain res count) s =
      .next (s.withPorts (okView none none none (some (scaleCore count.toInt res gain)))) ∧
    ∃ p : ℚ, f64Value (mulRN (f64 count.toInt) vref) = some p ∧
      f64Value (scaleCore count.toInt res gain) = some (p * 2 ^ (1 - (res.toNat : Int)) / (gain.toNat : ℚ))

/-- The voltage of any 32-bit count is +0.0 exactly for count 0, and otherwise a normal number whose sign is the
count's: never a NaN, an infinity, a subnormal or -0.0. -/
def Obligations.VoltagesAreNormalOrZero : Prop :=
  ∀ (gain res : Byte) (c : Int), Reference.legalRes res.toNat → Reference.legalGain gain.toNat →
    -(2 ^ 31) ≤ c → c ≤ 2 ^ 31 →
    voltageLegal (scaleCore c res gain) = true ∧ (scaleCore c res gain = 0 ↔ c = 0) ∧
    (scaleCore c res gain).msb = decide (c < 0)

/-- The voltage of the opposite count is the opposite voltage: the same pattern with the sign bit turned. -/
def Obligations.VoltageIsOdd : Prop :=
  ∀ (gain res : Byte) (c : Int), Reference.legalRes res.toNat → Reference.legalGain gain.toNat → c ≠ 0 →
    -(2 ^ 31) ≤ c → c ≤ 2 ^ 31 →
    scaleCore (-c) res gain = scaleCore c res gain ^^^ 0x8000000000000000#64

/-- The extreme voltages: none is larger in magnitude than that of -2^31 at 12 bits and gain 1, which is
0xC140624DD2F1A9FC, and none but zero is smaller than that of 1 at 18 bits and gain 8, 0x3EC0624DD2F1A9FC. -/
def Obligations.VoltageMagnitudeBounds : Prop :=
  scaleCore (-(2 ^ 31)) 12 1 = 0xC140624DD2F1A9FC#64 ∧ scaleCore 1 18 8 = 0x3EC0624DD2F1A9FC#64 ∧
  ∀ (gain res : Byte) (c : Int) (v hi lo : ℚ), Reference.legalRes res.toNat → Reference.legalGain gain.toNat →
    -(2 ^ 31) ≤ c → c ≤ 2 ^ 31 → f64Value (scaleCore c res gain) = some v →
    f64Value 0x4140624DD2F1A9FC#64 = some hi → f64Value 0x3EC0624DD2F1A9FC#64 = some lo →
    |v| ≤ hi ∧ (c ≠ 0 → lo ≤ |v|)

/-- The faults of SCALE and CONVERT in their order: RESOLUTION, then GAIN (a gain of 0 among them), under both values
of LEGACY_FALLBACK. -/
def Obligations.ScalingFaultsInOrder : Prop :=
  ∀ (gain res : Byte) (count : Count) (raw : Raw) (s : State),
    (¬ Reference.legalRes res.toNat →
      exec (.scale gain res count) s = .next (s.withPorts (faultView 1 2)) ∧
      exec (.convert gain res raw) s = .next (s.withPorts (faultView 1 2))) ∧
    (Reference.legalRes res.toNat → ¬ Reference.legalGain gain.toNat →
      exec (.scale gain res count) s = .next (s.withPorts (faultView 1 3)) ∧
      exec (.convert gain res raw) s = .next (s.withPorts (faultView 1 3)))

/-- CONVERT completes on legal operands for every raw response, with the decoder's count and snapshot and the scaled
voltage, and nothing but the ports changes. -/
def Obligations.ConvertDecodesAndScales : Prop :=
  ∀ (gain res : Byte) (raw : Raw) (s : State), Reference.legalRes res.toNat → Reference.legalGain gain.toNat →
    exec (.convert gain res raw) s = .next (s.withPorts (okView none
      (some (Reference.intPort res.toNat raw)) (some (Reference.snapPort res.toNat raw))
      (some (Reference.voltPort gain res raw))))

/-- R185: CONVERT equals DECODE followed by SCALE of its count, port by port. -/
def Obligations.ConvertEqualsDecodeThenScale : Prop :=
  ∀ (raw : Raw) (res gain : Byte) (s : State), legalResolutions.contains res → legalGains.contains gain →
    ∃ t u v adj, exec (.decode (BitVec.ofNat 8 (numDataBytes res)) res raw) s = .next t ∧ t.outInt = some adj ∧
      exec (.scale gain res adj) t = .next u ∧ exec (.convert gain res raw) s = .next v ∧
      v.status = some 0 ∧ v.outInt = t.outInt ∧ v.outSnap = t.outSnap ∧ v.outF64 = u.outF64

/-! ## The host's read request (outside the block) -/

/-- R262: the conversion delay is 1000 / rate rounded down, plus 50, with the rates 240, 60, 15 and 3.75, and 550 for any
other resolution; so it is 54, 66, 116 and 316 ms. -/
def Obligations.ConversionDelays : Prop :=
  ∀ res : Byte,
    (res = 12 → (convDelayMs res : Int) = ⌊(1000 : ℚ) / 240⌋ + 50 ∧ convDelayMs res = 54) ∧
    (res = 14 → (convDelayMs res : Int) = ⌊(1000 : ℚ) / 60⌋ + 50 ∧ convDelayMs res = 66) ∧
    (res = 16 → (convDelayMs res : Int) = ⌊(1000 : ℚ) / 15⌋ + 50 ∧ convDelayMs res = 116) ∧
    (res = 18 → (convDelayMs res : Int) = ⌊(1000 : ℚ) / (375 / 100)⌋ + 50 ∧ convDelayMs res = 316) ∧
    (¬ Reference.legalRes res.toNat → convDelayMs res = 500 + 50)

/-! The statements about a request rest on the model of the host in Machine/Protocol.lean (log entries 9 and 13). -/

/-- A request with legal operands whose transport succeeds ends in Done: the configuration byte is written, the delay of
the resolution elapses, four bytes are read, and the caller gets the scaled voltage and the snapshot, by CONVERT
and by DECODE with SCALE alike. -/
def Obligations.RequestSucceeds : Prop :=
  ∀ (block : State) (req : Request) (raw : Raw) (viaConvert : Bool) (v0 : F64) (d0 : Snapshot),
    1 ≤ req.ch.toNat → req.ch.toNat ≤ 4 → Reference.legalRes req.res.toNat → Reference.legalGain req.gain.toNat →
    let d := (Driver.start block req { writeOk := true, readBytes := some raw } viaConvert v0 d0).run
    d.phase = .done ∧ d.ok = some true ∧ d.failure = none ∧
    d.analog = Reference.voltPort req.gain req.res raw ∧ d.diag = Reference.snapPort req.res.toNat raw ∧
    d.events = Reference.requestEvents req ∧
    d.commands = .encfg req.ch req.res req.gain ::
      (if viaConvert then [.convert req.gain req.res raw]
       else [.decode (BitVec.ofNat 8 (Reference.payload req.res.toNat)) req.res raw,
        .scale req.gain req.res (Reference.intPort req.res.toNat raw)])

/-- Where ENCFG completes (legal operands, or a legal channel with LEGACY_FALLBACK true), a failed write ends the request
with no delay, no read and no decoding, and a failed read ends it with no decoding: ENCFG is the one command the host
has issued, and the block's ports still show its response. -/
def Obligations.TransportFailuresEndTheRequest : Prop :=
  ∀ (block : State) (req : Request) (bytes : Option Raw) (viaConvert : Bool) (v0 : F64) (d0 : Snapshot),
    1 ≤ req.ch.toNat → req.ch.toNat ≤ 4 →
    (block.params.legacyFallback = true ∨
      (Reference.legalRes req.res.toNat ∧ Reference.legalGain req.gain.toNat)) →
    let b : Byte := BitVec.ofNat 8 (Reference.configByte req.ch.toNat req.res.toNat req.gain.toNat)
    let encfgView := okView (some b) (some (BitVec.ofNat 32 (Reference.payload req.res.toNat))) none none
    let w := (Driver.start block req { writeOk := false, readBytes := bytes } viaConvert v0 d0).run
    let r := (Driver.start block req { writeOk := true, readBytes := none } viaConvert v0 d0).run
    (w.phase = .failed ∧ w.ok = some false ∧ w.failure = some .transportWriteFailure ∧ w.analog = v0 ∧ w.diag = d0 ∧
      w.events = [HostEvent.write req.address b] ∧
      w.commands = [.encfg req.ch req.res req.gain] ∧ w.block.view = encfgView) ∧
    (r.phase = .failed ∧ r.ok = some false ∧ r.failure = some .transportReadFailure ∧ r.analog = v0 ∧ r.diag = d0 ∧
      r.events = Reference.requestEvents req ∧
      r.commands = [.encfg req.ch req.res req.gain] ∧ r.block.view = encfgView)

/-- A request whose ENCFG faults ends in Failed before anything is written: an illegal channel under both values of
LEGACY_FALLBACK, and an illegal resolution or gain with `LEGACY_FALLBACK = false`. -/
def Obligations.IllegalRequestWritesNothing : Prop :=
  ∀ (block : State) (req : Request) (tr : Transport) (viaConvert : Bool) (v0 : F64) (d0 : Snapshot),
    (req.ch.toNat < 1 ∨ 4 < req.ch.toNat ∨ (block.params.legacyFallback = false ∧
      (¬ Reference.legalRes req.res.toNat ∨ ¬ Reference.legalGain req.gain.toNat))) →
    let d := (Driver.start block req tr viaConvert v0 d0).run
    d.phase = .failed ∧ d.ok = some false ∧ d.failure = some .configurationError ∧ d.events = [] ∧
    d.commands = [.encfg req.ch req.res req.gain] ∧ d.analog = v0 ∧ d.diag = d0

/-- With `LEGACY_FALLBACK = true`, a request with a legal channel and an illegal resolution or gain, whose transport
succeeds, ends in Failed after write, delay and read, by a ConfigurationError of the decoding command. -/
def Obligations.LegacyFallbackRequestsFailInDecoding : Prop :=
  ∀ (block : State) (req : Request) (raw : Raw) (viaConvert : Bool) (v0 : F64) (d0 : Snapshot),
    block.params.legacyFallback = true → 1 ≤ req.ch.toNat → req.ch.toNat ≤ 4 →
    (¬ Reference.legalRes req.res.toNat ∨ ¬ Reference.legalGain req.gain.toNat) →
    let d := (Driver.start block req { writeOk := true, readBytes := some raw } viaConvert v0 d0).run
    d.phase = .failed ∧ d.ok = some false ∧ d.failure = some .configurationError ∧
    d.events = Reference.requestEvents req ∧ d.analog = v0 ∧ d.diag = d0 ∧
    d.block.view = faultView 1 (if req.res.toNat = 12 ∨ req.res.toNat = 14 ∨ req.res.toNat = 16 ∨ req.res.toNat = 18
      then 3 else 2)

/-- Every request ends in Done or in Failed; in Failed the caller's value and buffer are unmodified; and what the host
did is, in order, the beginning of one write, the whole delay of the resolution, and one read. -/
def Obligations.RequestsEndAndKeepTheOrder : Prop :=
  ∀ (block : State) (req : Request) (tr : Transport) (viaConvert : Bool) (v0 : F64) (d0 : Snapshot),
    let d := (Driver.start block req tr viaConvert v0 d0).run
    ((d.phase = .done ∧ d.ok = some true) ∨ (d.phase = .failed ∧ d.ok = some false ∧ d.analog = v0 ∧ d.diag = d0)) ∧
    d.step = d ∧
    ∃ b, d.events <+: [HostEvent.write req.address b, HostEvent.delay (convDelayMs req.res), HostEvent.read req.address]
end

