-- ==== Sys2Proof/Laws/Binary64.lean ====
section
/-! SUPPORT. What the rounding operation of the binary64 primitives does, over the rational numbers: it depends on
the number alone, it moves it by half a last place at most, and it keeps a representable number. -/

namespace Sys2Proof.Machine

/-- The rounded quotient is within one half of the quotient. -/
theorem roundDiv_near (n d : Nat) (hd : 0 < d) :
    2 * n ≤ (2 * roundDiv n d + 1) * d ∧ 2 * roundDiv n d * d ≤ 2 * n + d := by
  have h := Nat.div_add_mod n d
  have hm := Nat.mod_lt n hd
  unfold roundDiv
  generalize n / d = q at *
  generalize n % d = r at *
  subst h
  split
  · constructor <;> nlinarith
  · split
    · constructor <;> nlinarith
    · have : q % 2 = 0 ∨ q % 2 = 1 := by omega
      have : 2 * r = d := by omega
      rcases ‹q % 2 = 0 ∨ _› with h | h <;> rw [h] <;> constructor <;> nlinarith

/-- At a tie the rounded quotient is even. -/
theorem roundDiv_tie (n d : Nat) (hd : 0 < d)
    (h : 2 * n = (2 * roundDiv n d + 1) * d ∨ 2 * roundDiv n d * d = 2 * n + d) : roundDiv n d % 2 = 0 := by
  have h1 := Nat.div_add_mod n d
  have hm := Nat.mod_lt n hd
  unfold roundDiv at *
  generalize n / d = q at *
  generalize n % d = r at *
  subst h1
  split_ifs at * with h2 h3
  · rcases h with h | h <;> nlinarith
  · rcases h with h | h <;> nlinarith
  · omega

/-- An exact quotient is not changed by rounding. -/
theorem roundDiv_exact (m d : Nat) (hd : 0 < d) : roundDiv (m * d) d = m := by
  simp [roundDiv, hd]

theorem roundDiv_mono {n n' d : Nat} (hd : 0 < d) (h : n ≤ n') : roundDiv n d ≤ roundDiv n' d := by
  obtain ⟨a1, a2⟩ := roundDiv_near n d hd
  obtain ⟨b1, b2⟩ := roundDiv_near n' d hd
  by_contra hc
  push Not at hc
  have h3 : roundDiv n' d + 1 ≤ roundDiv n d := hc
  have h4 : (2 * roundDiv n' d + 2) * d ≤ 2 * roundDiv n d * d := by apply Nat.mul_le_mul_right; omega
  have : n = n' := by nlinarith
  subst this; omega

/-- A common factor does not change the rounded quotient. -/
theorem roundDiv_scale (n d k : Nat) (hk : 0 < k) : roundDiv (n * k) (d * k) = roundDiv n d := by
  unfold roundDiv
  rw [Nat.mul_mod_mul_right, Nat.mul_div_mul_right _ _ hk]
  have : 2 * (n % d * k) = 2 * (n % d) * k := by ring
  rw [this]
  simp only [Nat.mul_lt_mul_right hk]

/-- `roundDiv` depends on the quotient alone. -/
theorem roundDiv_congr {n d n' d' : Nat} (hd : 0 < d) (hd' : 0 < d') (h : n * d' = n' * d) :
    roundDiv n d = roundDiv n' d' := by
  rw [← roundDiv_scale n d d' hd', ← roundDiv_scale n' d' d hd, h, Nat.mul_comm d d']

/-- The number `n / d * 2 ^ e`. -/
def quot (n d : Nat) (e : Int) : ℚ := (n : ℚ) / d * 2 ^ e

/-- `floorLog2Div` is the binary logarithm of the quotient, rounded down. -/
theorem floorLog2Div_spec {n d : Nat} (hn : 0 < n) (hd : 0 < d) :
    (2 : ℚ) ^ floorLog2Div n d ≤ (n : ℚ) / d ∧ (n : ℚ) / d < 2 ^ (floorLog2Div n d + 1) := by
  have n1 := Nat.log2_self_le hn.ne'
  have n2 := Nat.lt_log2_self (n := n)
  have d1 := Nat.log2_self_le hd.ne'
  have d2 := Nat.lt_log2_self (n := d)
  have hdq : (0 : ℚ) < d := by exact_mod_cast hd
  have n1' : (2 : ℚ) ^ (Nat.log2 n : ℤ) ≤ n := by exact_mod_cast n1
  have n2' : (n : ℚ) < 2 ^ ((Nat.log2 n : ℤ) + 1) := by exact_mod_cast n2
  have d1' : (2 : ℚ) ^ (Nat.log2 d : ℤ) ≤ d := by exact_mod_cast d1
  have d2' : (d : ℚ) < 2 ^ ((Nat.log2 d : ℤ) + 1) := by exact_mod_cast d2
  set k : ℤ := (Nat.log2 n : ℤ) - (Nat.log2 d : ℤ) with hk
  have low : (2 : ℚ) ^ (k - 1) ≤ (n : ℚ) / d := by
    rw [le_div_iff₀ hdq]
    calc (2 : ℚ) ^ (k - 1) * d ≤ 2 ^ (k - 1) * 2 ^ ((Nat.log2 d : ℤ) + 1) := by gcongr
      _ = 2 ^ (Nat.log2 n : ℤ) := by rw [← zpow_add₀ two_ne_zero]; congr 1; omega
      _ ≤ n := n1'
  have high : (n : ℚ) / d < 2 ^ (k + 1) := by
    rw [div_lt_iff₀ hdq]
    calc (n : ℚ) < 2 ^ ((Nat.log2 n : ℤ) + 1) := n2'
      _ = 2 ^ (k + 1) * 2 ^ (Nat.log2 d : ℤ) := by rw [← zpow_add₀ two_ne_zero]; congr 1; omega
      _ ≤ 2 ^ (k + 1) * d := by gcongr
  have key : (d * 2 ^ k.toNat ≤ n * 2 ^ (-k).toNat) ↔ (2 : ℚ) ^ k ≤ (n : ℚ) / d := by
    rw [le_div_iff₀ hdq]
    have e1 : (2 : ℚ) ^ k = 2 ^ k.toNat / 2 ^ (-k).toNat := by
      rw [eq_div_iff (by positivity), ← zpow_natCast, ← zpow_natCast, ← zpow_add₀ two_ne_zero]
      congr 1; omega
    rw [e1, div_mul_eq_mul_div, div_le_iff₀ (by positivity), mul_comm ((2:ℚ)^_)]
    exact_mod_cast Iff.rfl
  unfold floorLog2Div
  simp only [← hk]
  split
  · rename_i h; exact ⟨key.1 h, high⟩
  · rename_i h
    have := mt key.2 h
    push Not at this
    refine ⟨low, ?_⟩
    simpa using this

theorem floorLog2Div_unique {n d : Nat} (hn : 0 < n) (hd : 0 < d) {k : Int}
    (h1 : (2 : ℚ) ^ k ≤ (n : ℚ) / d) (h2 : (n : ℚ) / d < 2 ^ (k + 1)) : floorLog2Div n d = k := by
  obtain ⟨a, b⟩ := floorLog2Div_spec hn hd
  have h3 := (zpow_lt_zpow_iff_right₀ (one_lt_two (α := ℚ))).1 (lt_of_le_of_lt h1 b)
  have h4 := (zpow_lt_zpow_iff_right₀ (one_lt_two (α := ℚ))).1 (lt_of_le_of_lt a h2)
  omega

theorem ulpExp_of_bounds {n d : Nat} {e : Int} (hn : 0 < n) (hd : 0 < d) {k : Int}
    (h1 : (2 : ℚ) ^ k ≤ quot n d e) (h2 : quot n d e < 2 ^ (k + 1)) : ulpExp n d e = max (k - 52) (-1074) := by
  have hp : (0 : ℚ) < 2 ^ e := by positivity
  unfold quot at *
  have : floorLog2Div n d = k - e := by
    apply floorLog2Div_unique hn hd
    · rw [zpow_sub₀ two_ne_zero, div_le_iff₀ hp]; exact h1
    · rw [show k - e + 1 = k + 1 - e by ring, zpow_sub₀ two_ne_zero, lt_div_iff₀ hp]; exact h2
  unfold ulpExp; rw [this]; congr 1; omega

theorem ulpExp_spec {n d : Nat} {e : Int} (hn : 0 < n) (hd : 0 < d) :
   ∃ k : Int, (2 : ℚ) ^ k ≤ quot n d e ∧ quot n d e < 2 ^ (k + 1) ∧ ulpExp n d e = max (k - 52) (-1074) := by
  obtain ⟨a, b⟩ := floorLog2Div_spec hn hd
  have hp : (0 : ℚ) < 2 ^ e := by positivity
  have h1 : (2 : ℚ) ^ (floorLog2Div n d + e) ≤ quot n d e := by
    rw [zpow_add₀ two_ne_zero]; unfold quot; gcongr
  have h2 : quot n d e < (2 : ℚ) ^ (floorLog2Div n d + e + 1) := by
    rw [show floorLog2Div n d + e + 1 = floorLog2Div n d + 1 + e by ring, zpow_add₀ two_ne_zero]; unfold quot; gcongr
  exact ⟨_, h1, h2, ulpExp_of_bounds hn hd h1 h2⟩

/-- The rounded significand of `roundF64`, with `u` the exponent of its last place. -/
def roundSig (n d : Nat) (e u : Int) : Nat := roundDiv (n * 2 ^ (e - u).toNat) (d * 2 ^ (u - e).toNat)

theorem roundF64_pos (neg : Bool) {n : Nat} (d : Nat) (e : Int) (hn : 0 < n) :
    roundF64 neg n d e =
      signed neg (min ((ulpExp n d e + 1074).toNat * 2 ^ 52 + roundSig n d e (ulpExp n d e)) infMag) := by
  simp [roundF64, hn.ne', roundSig]

theorem roundSig_quot (n d : Nat) (hd : 0 < d) (e u : Int) :
    ((n * 2 ^ (e - u).toNat : Nat) : ℚ) / ((d * 2 ^ (u - e).toNat : Nat) : ℚ) * 2 ^ u = quot n d e := by
  have hdq : (d : ℚ) ≠ 0 := by positivity
  unfold quot
  push_cast
  rw [div_mul_eq_mul_div, div_mul_eq_mul_div, div_eq_div_iff (by positivity) hdq]
  have : (2 : ℚ) ^ (e - u).toNat * 2 ^ u = 2 ^ e * 2 ^ (u - e).toNat := by
    rw [← zpow_natCast, ← zpow_natCast, ← zpow_add₀ two_ne_zero, ← zpow_add₀ two_ne_zero]; congr 1; omega
  linear_combination (n : ℚ) * d * this

/-- The rounded number is within half a last place of the number. -/
theorem roundSig_near (n d : Nat) (hd : 0 < d) (e u : Int) :
    |(roundSig n d e u : ℚ) * 2 ^ u - quot n d e| ≤ 2 ^ u / 2 := by
  rw [← roundSig_quot n d hd e u]
  obtain ⟨a, b⟩ := roundDiv_near (n * 2 ^ (e - u).toNat) (d * 2 ^ (u - e).toNat) (by positivity)
  unfold roundSig
  generalize n * 2 ^ (e - u).toNat = N at *
  have hD : 0 < d * 2 ^ (u - e).toNat := by positivity
  generalize d * 2 ^ (u - e).toNat = D at *
  have hDq : (0 : ℚ) < D := by exact_mod_cast hD
  have hp : (0 : ℚ) < 2 ^ u := by positivity
  have a' : (2 * N : ℚ) ≤ (2 * roundDiv N D + 1) * D := by exact_mod_cast a
  have b' : (2 * roundDiv N D * D : ℚ) ≤ 2 * N + D := by exact_mod_cast b
  rw [← sub_mul, abs_mul, abs_of_pos hp, show (2:ℚ)^u / 2 = 2⁻¹ * 2^u by ring]
  gcongr
  rw [abs_le]
  constructor
  · rw [neg_le_sub_iff_le_add, div_le_iff₀ hDq]; linarith
  · rw [sub_le_iff_le_add, ← sub_le_iff_le_add', le_div_iff₀ hDq]; linarith

/-- The rounded significand depends on the number alone. -/
theorem roundSig_congr {n d n' d' : Nat} {e e' : Int} (hd : 0 < d) (hd' : 0 < d')
    (h : quot n d e = quot n' d' e') (u : Int) : roundSig n d e u = roundSig n' d' e' u := by
  apply roundDiv_congr (by positivity) (by positivity)
  have e1 := roundSig_quot n d hd e u
  have e2 := roundSig_quot n' d' hd' e' u
  rw [h, ← e2] at e1
  have := mul_right_cancel₀ (by positivity : (2:ℚ)^u ≠ 0) e1
  rw [div_eq_div_iff (by positivity) (by positivity)] at this
  exact_mod_cast this

/-- `roundF64` depends on the sign and on the number alone. -/
theorem roundF64_congr (neg : Bool) {n d n' d' : Nat} {e e' : Int} (hd : 0 < d) (hd' : 0 < d')
    (h : quot n d e = quot n' d' e') : roundF64 neg n d e = roundF64 neg n' d' e' := by
  have hdq : (0 : ℚ) < d := by exact_mod_cast hd
  have hdq' : (0 : ℚ) < d' := by exact_mod_cast hd'
  rcases Nat.eq_zero_or_pos n with h0 | hn
  · subst h0
    have : n' = 0 := by
      have : quot n' d' e' = 0 := by rw [← h]; simp [quot]
      unfold quot at this
      have h2 : (2 : ℚ) ^ e' ≠ 0 := by positivity
      simpa [hdq'.ne', h2] using this
    simp [this, roundF64]
  · have hn' : 0 < n' := by
      rcases Nat.eq_zero_or_pos n' with h0 | h1
      · exfalso
        have : quot n d e = 0 := by rw [h, h0]; simp [quot]
        unfold quot at this
        have h2 : (2 : ℚ) ^ e ≠ 0 := by positivity
        simp [hdq.ne', h2, hn.ne'] at this
      · exact h1
    obtain ⟨k, h1, h2, h3⟩ := ulpExp_spec (e := e) hn hd
    have h4 := ulpExp_of_bounds hn' hd' (h ▸ h1) (h ▸ h2)
    rw [roundF64_pos _ _ _ hn, roundF64_pos _ _ _ hn', h3, h4, roundSig_congr hd hd' h]

theorem signed_toNat (neg : Bool) {mag : Nat} (h : mag < 2 ^ 63) :
    (signed neg mag).toNat = (if neg then 2 ^ 63 else 0) + mag := by
  unfold signed
  cases neg <;> simp only [BitVec.toNat_ofNat] <;> simp <;> omega

/-- The sign bit. -/
theorem signed_msb (neg : Bool) {mag : Nat} (h : mag < 2 ^ 63) : (signed neg mag).msb = neg := by
  rw [BitVec.msb_eq_decide, signed_toNat neg h]
  cases neg <;> simp
  omega

/-- The fields of a finite pattern. -/
theorem unpackF64_signed (neg : Bool) {mag : Nat} (h : mag < infMag) :
    unpackF64 (signed neg mag) =
      if mag < 2 ^ 52 then .finite neg mag (-1074)
      else .finite neg (2 ^ 52 + mag % 2 ^ 52) (((mag / 2 ^ 52 : Nat) : Int) - 1075) := by
  have h63 : mag < 2 ^ 63 := lt_trans h (by decide)
  have he : ((signed neg mag).extractLsb 62 52).toNat = mag / 2 ^ 52 := by
    rw [BitVec.extractLsb_toNat, signed_toNat neg h63, Nat.shiftRight_eq_div_pow]
    cases neg <;> simp <;> omega
  have hf : ((signed neg mag).extractLsb 51 0).toNat = mag % 2 ^ 52 := by
    rw [BitVec.extractLsb_toNat, signed_toNat neg h63, Nat.shiftRight_eq_div_pow]
    cases neg <;> simp
    omega
  have h2047 : mag / 2 ^ 52 ≠ 2047 := by unfold infMag at h; omega
  unfold unpackF64
  simp only [he, hf, signed_msb neg h63, h2047, if_false]
  by_cases hz : mag < 2 ^ 52
  · have : mag / 2 ^ 52 = 0 := by omega
    rw [if_pos this, if_pos hz, Nat.mod_eq_of_lt hz]
  · have : mag / 2 ^ 52 ≠ 0 := by omega
    rw [if_neg this, if_neg hz]

/-- The factor of a sign bit. -/
def signQ (neg : Bool) : ℚ := if neg then -1 else 1

/-- The value of a pattern built from the exponent of its last place and its significand. -/
theorem f64Value_signed (neg : Bool) {u : Int} {m : Nat} (hu : -1074 ≤ u) (hm : m ≤ 2 ^ 53)
    (hlow : 2 ^ 52 ≤ m ∨ u = -1074) (hmax : (u + 1074).toNat * 2 ^ 52 + m < infMag) :
    f64Value (signed neg ((u + 1074).toNat * 2 ^ 52 + m)) = some (signQ neg * m * 2 ^ u) := by
  unfold f64Value
  rw [unpackF64_signed neg hmax]
  obtain ⟨j, hj⟩ : ∃ j : Nat, u = (j : Int) - 1074 := ⟨(u + 1074).toNat, by omega⟩
  have hj' : (u + 1074).toNat = j := by omega
  rw [hj'] at *
  by_cases hz : j * 2 ^ 52 + m < 2 ^ 52
  · rw [if_pos hz]
    have : j = 0 := by omega
    subst this
    simp [Binary64.toRat, signQ, hj]
  · rw [if_neg hz]
    rcases Nat.lt_or_ge m (2 ^ 52) with h1 | h1
    · have : j = 0 := by omega
      omega
    · rcases Nat.lt_or_ge m (2 ^ 53) with h2 | h2
      · have e1 : (j * 2 ^ 52 + m) % 2 ^ 52 = m - 2 ^ 52 := by omega
        have e2 : (j * 2 ^ 52 + m) / 2 ^ 52 = j + 1 := by omega
        rw [e1, e2, show 2 ^ 52 + (m - 2 ^ 52) = m by omega, hj]
        simp only [Binary64.toRat, signQ]
        congr 3; push_cast; ring
      · have hm3 : m = 2 ^ 53 := by omega
        have e1 : (j * 2 ^ 52 + m) % 2 ^ 52 = 0 := by omega
        have e2 : (j * 2 ^ 52 + m) / 2 ^ 52 = j + 2 := by omega
        rw [e1, e2, hj, hm3]
        simp only [Binary64.toRat, signQ]
        congr 1
        have : (((j + 2 : Nat) : Int) - 1075) = (j - 1074) + 1 := by push_cast; ring
        rw [this, zpow_add₀ two_ne_zero]; push_cast; ring

theorem roundSig_le {n d : Nat} {e : Int} (hn : 0 < n) (hd : 0 < d) :
    roundSig n d e (ulpExp n d e) ≤ 2 ^ 53 := by
  obtain ⟨k, h1, h2, h3⟩ := ulpExp_spec (e := e) hn hd
  have hne := roundSig_near n d hd e (ulpExp n d e)
  generalize ulpExp n d e = u at *
  have hp : (0 : ℚ) < 2 ^ u := by positivity
  have h4 : quot n d e < 2 ^ 53 * 2 ^ u := by
    refine lt_of_lt_of_le h2 ?_
    rw [← zpow_natCast, ← zpow_add₀ two_ne_zero]
    exact zpow_le_zpow_right₀ one_le_two (by push_cast; omega)
  have h5 := (abs_le.1 hne).2
  have : (roundSig n d e u : ℚ) < 2 ^ 53 + 1 := by
    refine lt_of_mul_lt_mul_right (a := (2:ℚ)^u) ?_ hp.le
    linarith
  have h6 : roundSig n d e u < 2 ^ 53 + 1 := by exact_mod_cast this
  omega

theorem roundSig_ge {n d : Nat} {e : Int} (hn : 0 < n) (hd : 0 < d) :
    2 ^ 52 ≤ roundSig n d e (ulpExp n d e) ∨ ulpExp n d e = -1074 := by
  obtain ⟨k, h1, h2, h3⟩ := ulpExp_spec (e := e) hn hd
  by_cases hc : ulpExp n d e = -1074
  · exact .inr hc
  left
  have hne := roundSig_near n d hd e (ulpExp n d e)
  have hk : ulpExp n d e = k - 52 := by omega
  generalize ulpExp n d e = u at *
  have hp : (0 : ℚ) < 2 ^ u := by positivity
  have h4 : (2 : ℚ) ^ 52 * 2 ^ u ≤ quot n d e := by
    refine le_trans (le_of_eq ?_) h1
    rw [← zpow_natCast, ← zpow_add₀ two_ne_zero]; congr 1; push_cast; omega
  have h5 := (abs_le.1 hne).1
  have : (2 : ℚ) ^ 52 - 1 < roundSig n d e u := by
    refine lt_of_mul_lt_mul_right (a := (2:ℚ)^u) ?_ hp.le
    linarith
  have h6 : 2 ^ 52 < roundSig n d e u + 1 := by
    have : (2 : ℚ) ^ 52 < roundSig n d e u + 1 := by linarith
    exact_mod_cast this
  omega

theorem ulpExp_ge (n d : Nat) (e : Int) : -1074 ≤ ulpExp n d e := by unfold ulpExp; omega

/-- The value of a rounded number that is not too large. -/
theorem roundF64_value (neg : Bool) {n d : Nat} {e : Int} (hn : 0 < n) (hd : 0 < d)
    (hmax : (ulpExp n d e + 1074).toNat * 2 ^ 52 + roundSig n d e (ulpExp n d e) < infMag) :
    f64Value (roundF64 neg n d e) = some (signQ neg * roundSig n d e (ulpExp n d e) * 2 ^ ulpExp n d e) := by
  rw [roundF64_pos neg d e hn, min_eq_left hmax.le]
  exact f64Value_signed neg (ulpExp_ge _ _ _) (roundSig_le hn hd) (roundSig_ge hn hd) hmax

theorem roundSig_exact {n d : Nat} (hd : 0 < d) {e u : Int} {M : Nat} (h : quot n d e = M * 2 ^ u) :
    roundSig n d e u = M := by
  have e1 := roundSig_quot n d hd e u
  rw [h] at e1
  have := mul_right_cancel₀ (by positivity : (2:ℚ)^u ≠ 0) e1
  unfold roundSig
  have hD : 0 < d * 2 ^ (u - e).toNat := by positivity
  rw [div_eq_iff (by positivity)] at this
  have h2 : n * 2 ^ (e - u).toNat = M * (d * 2 ^ (u - e).toNat) := by exact_mod_cast this
  rw [h2, roundDiv_exact _ _ hD]

/-- The pattern of a representable number. -/
theorem roundF64_exact (neg : Bool) {n d : Nat} {e : Int} (hd : 0 < d) {M : Nat} {U : Int}
    (h : quot n d e = M * 2 ^ U) (hM : M < 2 ^ 53) (hU : -1074 ≤ U) (hU2 : U ≤ 971) :
    f64Value (roundF64 neg n d e) = some (signQ neg * M * 2 ^ U) := by
  rcases Nat.eq_zero_or_pos n with h0 | hn
  · subst h0
    have hz : (M : ℚ) * 2 ^ U = 0 := by rw [← h]; simp [quot]
    rw [mul_assoc, hz]
    have : roundF64 neg 0 d e = signed neg ((((-1074 : Int) + 1074).toNat) * 2 ^ 52 + 0) := by simp [roundF64]
    rw [this, f64Value_signed neg le_rfl (by simp) (.inr rfl) (by decide)]
    simp
  obtain ⟨k, h1, h2, h3⟩ := ulpExp_spec (e := e) hn hd
  have hMq : (M : ℚ) < 2 ^ 53 := by exact_mod_cast hM
  have hkU : k < 53 + U := by
    rw [← zpow_lt_zpow_iff_right₀ (one_lt_two (α := ℚ))]
    refine lt_of_le_of_lt h1 ?_
    rw [h, zpow_add₀ two_ne_zero]
    have : (0 : ℚ) < 2 ^ U := by positivity
    exact mul_lt_mul_of_pos_right (by exact_mod_cast hMq) this
  have hu : ulpExp n d e ≤ U := by omega
  have hs := ulpExp_ge n d e
  have hle := roundSig_le (e := e) hn hd
  generalize hg : ulpExp n d e = u at *
  have hq : quot n d e = ((M * 2 ^ (U - u).toNat : Nat) : ℚ) * 2 ^ u := by
    rw [h]; push_cast
    rw [mul_assoc, ← zpow_natCast, ← zpow_add₀ two_ne_zero]; congr 2; omega
  have hsig := roundSig_exact hd hq
  have hlt : roundSig n d e u < 2 ^ 53 := by
    have hp : (0 : ℚ) < 2 ^ u := by positivity
    have : (roundSig n d e u : ℚ) < 2 ^ 53 := by
      refine lt_of_mul_lt_mul_right (a := (2:ℚ)^u) ?_ hp.le
      rw [hsig, ← hq]
      refine lt_of_lt_of_le h2 ?_
      rw [← zpow_natCast, ← zpow_add₀ two_ne_zero]
      exact zpow_le_zpow_right₀ one_le_two (by push_cast; omega)
    exact_mod_cast this
  rw [roundF64_value neg hn hd (by rw [hg]; unfold infMag; omega), hg, hsig, mul_assoc, ← hq, h, mul_assoc]

/-- A number in the normal range rounds to a normal pattern of its sign, by at most one part in 2^53. -/
theorem roundF64_normal (neg : Bool) {n d : Nat} {e : Int} (hn : 0 < n) (hd : 0 < d)
    (h1 : (2 : ℚ) ^ (-1022 : Int) ≤ quot n d e) (h2 : quot n d e < 2 ^ (1023 : Int)) :
    ∃ m u, unpackF64 (roundF64 neg n d e) = .finite neg m u ∧ 2 ^ 52 ≤ m ∧ m < 2 ^ 53 ∧
      -1074 ≤ u ∧ u ≤ 971 ∧ (roundSig n d e (ulpExp n d e) : ℚ) * 2 ^ ulpExp n d e = m * 2 ^ u ∧
      |(m : ℚ) * 2 ^ u - quot n d e| ≤ quot n d e / 2 ^ 53 := by
  obtain ⟨k, k1, k2, k3⟩ := ulpExp_spec (e := e) hn hd
  have hk1 : -1023 < k := by
    have := (zpow_lt_zpow_iff_right₀ (one_lt_two (α := ℚ))).1 (lt_of_le_of_lt h1 k2)
    omega
  have hk2 : k < 1023 := (zpow_lt_zpow_iff_right₀ (one_lt_two (α := ℚ))).1 (lt_of_le_of_lt k1 h2)
  have hu : ulpExp n d e = k - 52 := by omega
  have hle := roundSig_le (e := e) hn hd
  have hge : 2 ^ 52 ≤ roundSig n d e (ulpExp n d e) := by
    rcases roundSig_ge (e := e) hn hd with h | h
    · exact h
    · have hne := (abs_le.1 (roundSig_near n d hd e (ulpExp n d e))).1
      have hp : (0 : ℚ) < 2 ^ ulpExp n d e := by positivity
      have h4 : (2 : ℚ) ^ 52 * 2 ^ ulpExp n d e ≤ quot n d e := by
        refine le_trans (le_of_eq ?_) k1
        rw [← zpow_natCast, ← zpow_add₀ two_ne_zero]; congr 1; push_cast; omega
      have : (2 : ℚ) ^ 52 < roundSig n d e (ulpExp n d e) + 1 := by
        refine lt_of_mul_lt_mul_right (a := (2:ℚ) ^ ulpExp n d e) ?_ hp.le
        linarith
      have h6 : 2 ^ 52 < roundSig n d e (ulpExp n d e) + 1 := by exact_mod_cast this
      omega
  have hmax : (ulpExp n d e + 1074).toNat * 2 ^ 52 + roundSig n d e (ulpExp n d e) < infMag := by
    rw [hu] at hle ⊢; unfold infMag; omega
  have herr : |(roundSig n d e (ulpExp n d e) : ℚ) * 2 ^ ulpExp n d e - quot n d e| ≤ quot n d e / 2 ^ 53 := by
    refine le_trans (roundSig_near n d hd e _) ?_
    rw [le_div_iff₀ (by positivity)]
    refine le_trans (le_of_eq ?_) k1
    rw [hu, zpow_sub₀ two_ne_zero]; norm_num; ring
  have hun := unpackF64_signed neg hmax
  rw [roundF64_pos neg d e hn, min_eq_left hmax.le, hun]
  rw [hu] at *
  generalize roundSig n d e (k - 52) = m at *
  obtain ⟨j, hj⟩ : ∃ j : Nat, k - 52 = (j : Int) - 1074 := ⟨(k - 52 + 1074).toNat, by omega⟩
  have hj' : (k - 52 + 1074).toNat = j := by omega
  rw [hj'] at *
  rw [if_neg (by omega)]
  rcases Nat.lt_or_ge m (2 ^ 53) with h3 | h3
  · refine ⟨m, k - 52, ?_, hge, h3, by omega, by omega, rfl, herr⟩
    have e1 : (j * 2 ^ 52 + m) % 2 ^ 52 = m - 2 ^ 52 := by omega
    have e2 : (j * 2 ^ 52 + m) / 2 ^ 52 = j + 1 := by omega
    rw [e1, e2, show 2 ^ 52 + (m - 2 ^ 52) = m by omega, hj]
    congr 1; push_cast; ring
  · have hm : m = 2 * 2 ^ 52 := by omega
    have hv : (m : ℚ) * 2 ^ (k - 52) = ((2 ^ 52 : Nat) : ℚ) * 2 ^ (k - 51) := by
      rw [show k - 51 = (k - 52) + 1 by ring, zpow_add₀ two_ne_zero, hm]; push_cast; ring
    have e1 : (j * 2 ^ 52 + m) % 2 ^ 52 = 0 := by omega
    have e2 : (j * 2 ^ 52 + m) / 2 ^ 52 = j + 2 := by omega
    have e3 : (((j + 2 : Nat) : Int) - 1075) = k - 51 := by push_cast; omega
    rw [e1, e2, e3]
    exact ⟨2 ^ 52, k - 51, rfl, by norm_num, by norm_num, by omega, by omega, hv, hv ▸ herr⟩

/-- The significand is unchanged when the number and its last place are scaled together. -/
theorem roundSig_shift (n d : Nat) (e u k : Int) : roundSig n d (e + k) (u + k) = roundSig n d e u := by
  unfold roundSig
  rw [show e + k - (u + k) = e - u by ring, show u + k - (e + k) = u - e by ring]

/-- A normal number has one significand of 53 bits. -/
theorem normal_unique {m m' : Nat} {u u' : Int} (h1 : 2 ^ 52 ≤ m) (h2 : m < 2 ^ 53) (h1' : 2 ^ 52 ≤ m')
    (h2' : m' < 2 ^ 53) (h : (m : ℚ) * 2 ^ u = m' * 2 ^ u') : m = m' ∧ u = u' := by
  have b1 : (2 : ℚ) ^ 52 ≤ m := by exact_mod_cast h1
  have b2 : (m : ℚ) < 2 ^ 53 := by exact_mod_cast h2
  have b1' : (2 : ℚ) ^ 52 ≤ m' := by exact_mod_cast h1'
  have b2' : (m' : ℚ) < 2 ^ 53 := by exact_mod_cast h2'
  have lt_of : ∀ {a b : ℚ} {x y : Int}, (2 : ℚ) ^ 52 ≤ a → b < 2 ^ 53 → a * 2 ^ x = b * 2 ^ y → x < y + 1 := by
    intro a b x y ha hb hab
    have hp : (0 : ℚ) < 2 ^ y := by positivity
    have hq : (0 : ℚ) < 2 ^ x := by positivity
    have : (2 : ℚ) ^ (52 + x) < 2 ^ (53 + y) := by
      rw [zpow_add₀ two_ne_zero, zpow_add₀ two_ne_zero]
      calc (2 : ℚ) ^ (52 : Int) * 2 ^ x ≤ a * 2 ^ x := by gcongr; exact_mod_cast ha
        _ = b * 2 ^ y := hab
        _ < 2 ^ (53 : Int) * 2 ^ y := by gcongr; exact_mod_cast hb
    have := (zpow_lt_zpow_iff_right₀ (one_lt_two (α := ℚ))).1 this
    omega
  have e : u = u' := by
    have := lt_of b1 b2' h
    have := lt_of b1' b2 h.symm
    omega
  subst e
  have := mul_right_cancel₀ (by positivity : (2 : ℚ) ^ u ≠ 0) h
  exact ⟨by exact_mod_cast this, rfl⟩

/-- A normal number rounds to its own pattern. -/
theorem roundF64_exact_normal (neg : Bool) {n d : Nat} {e : Int} (hn : 0 < n) (hd : 0 < d) {M : Nat} {U : Int}
    (h : quot n d e = M * 2 ^ U) (hM : 2 ^ 52 ≤ M) (hM2 : M < 2 ^ 53) (hU : -1074 ≤ U) (hU2 : U < 971) :
    unpackF64 (roundF64 neg n d e) = .finite neg M U := by
  have b1 : (2 : ℚ) ^ 52 ≤ M := by exact_mod_cast hM
  have b2 : (M : ℚ) < 2 ^ 53 := by exact_mod_cast hM2
  have hp : (0 : ℚ) < 2 ^ U := by positivity
  have l1 : (2 : ℚ) ^ (52 + U) ≤ quot n d e := by
    rw [h, zpow_add₀ two_ne_zero]; gcongr; exact_mod_cast b1
  have l2 : quot n d e < (2 : ℚ) ^ (52 + U + 1) := by
    rw [h, show 52 + U + 1 = 53 + U by ring, zpow_add₀ two_ne_zero]; gcongr; exact_mod_cast b2
  obtain ⟨m, u, a1, a2, a3, -, -, a6, -⟩ := roundF64_normal neg hn hd
    (le_trans (zpow_le_zpow_right₀ one_le_two (by omega)) l1)
    (lt_of_lt_of_le l2 (zpow_le_zpow_right₀ one_le_two (by omega)))
  have hu := ulpExp_of_bounds hn hd l1 l2
  rw [show max (52 + U - 52) (-1074) = U by omega] at hu
  rw [hu, roundSig_exact hd h] at a6
  obtain ⟨rfl, rfl⟩ := normal_unique hM hM2 a2 a3 a6
  exact a1

/-- Multiplying a normal number by a power of two keeps the significand. -/
theorem roundF64_shift (neg : Bool) {n d : Nat} {e k : Int} (hn : 0 < n) (hd : 0 < d)
    (h1 : (2 : ℚ) ^ (-1021 : Int) ≤ quot n d e) (h2 : quot n d e < 2 ^ (1023 : Int))
    (h3 : (2 : ℚ) ^ (-1021 : Int) ≤ quot n d (e + k)) (h4 : quot n d (e + k) < 2 ^ (1023 : Int)) {m : Nat} {u : Int}
    (h : unpackF64 (roundF64 neg n d e) = .finite neg m u) :
    unpackF64 (roundF64 neg n d (e + k)) = .finite neg m (u + k) := by
  have low : (2 : ℚ) ^ (-1022 : Int) ≤ 2 ^ (-1021 : Int) := zpow_le_zpow_right₀ one_le_two (by norm_num)
  obtain ⟨m1, u1, a1, a2, a3, -, -, a6, -⟩ := roundF64_normal neg hn hd (le_trans low h1) h2
  obtain ⟨m2, u2, c1, c2, c3, -, -, c6, -⟩ := roundF64_normal neg hn hd (le_trans low h3) h4
  rw [a1] at h
  obtain ⟨-, rfl, rfl⟩ := Binary64.finite.inj h
  have ulp : ∀ {e : Int}, (2 : ℚ) ^ (-1021 : Int) ≤ quot n d e → -1074 < ulpExp n d e := by
    intro e he
    obtain ⟨k, k1, k2, k3⟩ := ulpExp_spec (e := e) hn hd
    have := (zpow_lt_zpow_iff_right₀ (one_lt_two (α := ℚ))).1 (lt_of_le_of_lt he k2)
    omega
  have hs : ulpExp n d (e + k) = ulpExp n d e + k := by
    have := ulp h1
    have := ulp h3
    unfold ulpExp at *; omega
  rw [hs, roundSig_shift, zpow_add₀ two_ne_zero, ← mul_assoc, a6, mul_assoc, ← zpow_add₀ two_ne_zero] at c6
  obtain ⟨rfl, rfl⟩ := normal_unique a2 a3 c2 c3 c6
  exact c1

/-- A product of finite operands is rounded once. -/
theorem mulRN_finite {a b : F64} {s t : Bool} {m n : Nat} {e g : Int} (ha : unpackF64 a = .finite s m e)
    (hb : unpackF64 b = .finite t n g) : mulRN a b = roundF64 (s ^^ t) (m * n) 1 (e + g) := by
  simp [mulRN, ha, hb]

/-- A quotient of finite operands, the divisor not zero, is rounded once. -/
theorem divRN_finite {a b : F64} {s t : Bool} {m n : Nat} {e g : Int} (ha : unpackF64 a = .finite s m e)
    (hb : unpackF64 b = .finite t n g) (hn : n ≠ 0) : divRN a b = roundF64 (s ^^ t) m n (e - g) := by
  simp [divRN, ha, hb, hn]

/-- The value of a finite pattern. -/
theorem f64Value_finite {a : F64} {s : Bool} {m : Nat} {e : Int} (ha : unpackF64 a = .finite s m e) :
    f64Value a = some (signQ s * m * 2 ^ e) := by
  simp only [f64Value, ha, Binary64.toRat, signQ]

end Sys2Proof.Machine
end

