-- ==== Sys2Proof/Laws/Decode.lean ====
section
/-! SUPPORT. The words of the encoder and the fields of the decoder as numbers, and the operand sets of
00_scope.md R9 beside the checks the commands make. -/

namespace Sys2Proof

theorem encodeNat_lt (i : Instr) : encodeNat i < 2 ^ 64 := by
  cases i <;> simp only [encodeNat, rawNat] <;> omega

theorem encode_toNat (i : Instr) : (encode i).toNat = encodeNat i := by
  rw [encode, BitVec.toNat_ofNat, Nat.mod_eq_of_lt (encodeNat_lt i)]

theorem field_toNat (w : CommandWord) (hi lo : Nat) :
    (field w hi lo).toNat = w.toNat / 2 ^ lo % 2 ^ (hi - lo + 1) := by
  simp [field, Nat.shiftRight_eq_div_pow]

/-- A field is the operand whose number stands at the field's place. -/
theorem field_eq_cast {n : Nat} (w : CommandWord) (hi lo : Nat) (x : BitVec n) (hn : n = hi - lo + 1)
    (h : w.toNat / 2 ^ lo % 2 ^ n = x.toNat) : field w hi lo = x.cast hn := by
  subst hn
  exact BitVec.eq_of_toNat_eq (by rw [field_toNat, h]; rfl)

/-- The decoder as arithmetic on the word: the op is `w / 2 ^ 60`, and a reserved field decides. -/
theorem decode_cases (w : CommandWord) :
    ((w.toNat / 2 ^ 60 = 0 ∨ 7 ≤ w.toNat / 2 ^ 60) ∧ decode w = .error .reservedOp) ∨
    (w.toNat / 2 ^ 60 = 1 ∧ decode w
      = (if w.toNat / 2 ^ 24 % 2 ^ 36 = 0 then .ok (.encfg (field w 23 16) (field w 15 8) (field w 7 0))
        else .error .reservedBits)) ∨
    (w.toNat / 2 ^ 60 = 2 ∧ decode w
      = (if w.toNat / 2 ^ 48 % 2 ^ 12 = 0 then .ok (.decode (field w 47 40) (field w 39 32) (rawField w))
        else .error .reservedBits)) ∨
    (w.toNat / 2 ^ 60 = 3 ∧ decode w
      = (if w.toNat / 2 ^ 48 % 2 ^ 12 = 0 then .ok (.scale (field w 47 40) (field w 39 32) (field w 31 0))
        else .error .reservedBits)) ∨
    (w.toNat / 2 ^ 60 = 4 ∧ decode w
      = (if w.toNat / 2 ^ 48 % 2 ^ 12 = 0 then .ok (.convert (field w 47 40) (field w 39 32) (rawField w))
        else .error .reservedBits)) ∨
    (w.toNat / 2 ^ 60 = 5 ∧ decode w
      = (if w.toNat / 2 ^ 8 % 2 ^ 52 = 0 then .ok (.gainf (field w 7 0))
        else .error .reservedBits)) ∨
    (w.toNat / 2 ^ 60 = 6 ∧ decode w
      = (if w.toNat / 2 ^ 8 % 2 ^ 52 = 0 then .ok (.resb (field w 7 0))
        else .error .reservedBits)) := by
  have hop : (field w 63 60).toNat = w.toNat / 2 ^ 60 := by rw [field_toNat]; omega
  have hlt : w.toNat / 2 ^ 60 < 16 := by omega
  have hf : ∀ hi lo, (field w hi lo = 0) = (w.toNat / 2 ^ lo % 2 ^ (hi - lo + 1) = 0) := by
    intro hi lo; rw [← field_toNat, ← BitVec.toNat_inj]; simp
  unfold decode
  rw [hop]
  generalize w.toNat / 2 ^ 60 = op at *
  interval_cases op <;> simp only [checkReserved, hf] <;> simp

/-- A mask of all bits from `k` up keeps those bits. -/
theorem and_highMask (w : BitVec 64) (k : Nat) : w &&& (BitVec.allOnes 64 <<< k) = (w >>> k) <<< k := by
  ext i hi
  simp only [BitVec.getElem_and, BitVec.getElem_shiftLeft, BitVec.getElem_allOnes]
  by_cases h : i < k <;> simp [h]
  rw [← BitVec.getLsbD_eq_getElem]
  congr 1
  omega

/-- A command's word under a mask of high bits is the number of those bits. -/
theorem encode_and_highMask (i : Instr) (k : Nat) (m c : BitVec 64) (hm : m = BitVec.allOnes 64 <<< k)
    (hc : c = BitVec.ofNat 64 (c.toNat / 2 ^ k) <<< k) (h : encodeNat i / 2 ^ k = c.toNat / 2 ^ k) :
    encode i &&& m = c := by
  rw [hm, and_highMask, hc]
  congr 1
  apply BitVec.eq_of_toNat_eq
  rw [BitVec.toNat_ushiftRight, encode_toNat, Nat.shiftRight_eq_div_pow, h, BitVec.toNat_ofNat, Nat.mod_eq_of_lt]
  exact lt_of_le_of_lt (Nat.div_le_self _ _) c.isLt

namespace Machine

theorem isChannel_iff_legal (b : Byte) : isChannel b = legalChannels.contains b := by revert b; decide

theorem isResolution_iff_legal (b : Byte) : isResolution b = legalResolutions.contains b := by revert b; decide

theorem isGain_iff_legal (b : Byte) : isGain b = legalGains.contains b := by revert b; decide

theorem rateCode_isSome (b : Byte) : (rateCode b).isSome = legalResolutions.contains b := by revert b; decide

theorem gainCode_isSome (b : Byte) : (gainCode b).isSome = legalGains.contains b := by revert b; decide

/-- A legal resolution is one of four, so a fact about legal resolutions is four facts. -/
theorem isResolution_cases {b : Byte} (h : isResolution b = true) : b = 12 ∨ b = 14 ∨ b = 16 ∨ b = 18 := by
  revert b; decide

/-- A legal gain is one of four. -/
theorem isGain_cases {b : Byte} (h : isGain b = true) : b = 1 ∨ b = 2 ∨ b = 4 ∨ b = 8 := by
  revert b; decide

end Machine

end Sys2Proof
end

