-- ==== Sys2Proof/Laws/PerInstr.lean ====
section
/-! SUPPORT. Facts about every command as syntax, one lemma per constructor. -/

/-- The mask and the match of a command's row, as opcode_table.json gives them. -/
def Sys2Proof.Laws.MatchesTableRow.row : Sys2Proof.Instr → BitVec 64 × BitVec 64
  | .encfg _ _ _ => (0xFFFFFFFFFF000000, 0x1000000000000000)
  | .decode _ _ _ => (0xFFFF000000000000, 0x2000000000000000)
  | .scale _ _ _ => (0xFFFF000000000000, 0x3000000000000000)
  | .convert _ _ _ => (0xFFFF000000000000, 0x4000000000000000)
  | .gainf _ => (0xFFFFFFFFFFFFFF00, 0x5000000000000000)
  | .resb _ => (0xFFFFFFFFFFFFFF00, 0x6000000000000000)

/-- The command's word matches its row of the opcode table: under the row's mask it is the row's match. -/
def Sys2Proof.Laws.MatchesTableRow.Statement (i : Sys2Proof.Instr) : Prop :=
  Sys2Proof.encode i &&& (Sys2Proof.Laws.MatchesTableRow.row i).1 = (Sys2Proof.Laws.MatchesTableRow.row i).2

theorem Sys2Proof.Laws.MatchesTableRow.encfg (ch res gain : Sys2Proof.Byte) :
    Sys2Proof.Laws.MatchesTableRow.Statement (.encfg ch res gain) :=
  Sys2Proof.encode_and_highMask _ 24 _ _ (by rw [Sys2Proof.Laws.MatchesTableRow.row]; decide)
    (by rw [Sys2Proof.Laws.MatchesTableRow.row]; decide)
    (by simp [Sys2Proof.encodeNat, Sys2Proof.Laws.MatchesTableRow.row]; omega)

theorem Sys2Proof.Laws.MatchesTableRow.decode (nb res : Sys2Proof.Byte) (raw : Sys2Proof.Raw) :
    Sys2Proof.Laws.MatchesTableRow.Statement (.decode nb res raw) :=
  Sys2Proof.encode_and_highMask _ 48 _ _ (by rw [Sys2Proof.Laws.MatchesTableRow.row]; decide)
    (by rw [Sys2Proof.Laws.MatchesTableRow.row]; decide)
    (by simp [Sys2Proof.encodeNat, Sys2Proof.rawNat, Sys2Proof.Laws.MatchesTableRow.row]; omega)

theorem Sys2Proof.Laws.MatchesTableRow.scale (gain res : Sys2Proof.Byte) (count : Sys2Proof.Count) :
    Sys2Proof.Laws.MatchesTableRow.Statement (.scale gain res count) :=
  Sys2Proof.encode_and_highMask _ 48 _ _ (by rw [Sys2Proof.Laws.MatchesTableRow.row]; decide)
    (by rw [Sys2Proof.Laws.MatchesTableRow.row]; decide)
    (by simp [Sys2Proof.encodeNat, Sys2Proof.Laws.MatchesTableRow.row]; omega)

theorem Sys2Proof.Laws.MatchesTableRow.convert (gain res : Sys2Proof.Byte) (raw : Sys2Proof.Raw) :
    Sys2Proof.Laws.MatchesTableRow.Statement (.convert gain res raw) :=
  Sys2Proof.encode_and_highMask _ 48 _ _ (by rw [Sys2Proof.Laws.MatchesTableRow.row]; decide)
    (by rw [Sys2Proof.Laws.MatchesTableRow.row]; decide)
    (by simp [Sys2Proof.encodeNat, Sys2Proof.rawNat, Sys2Proof.Laws.MatchesTableRow.row]; omega)

theorem Sys2Proof.Laws.MatchesTableRow.gainf (code : Sys2Proof.Byte) :
    Sys2Proof.Laws.MatchesTableRow.Statement (.gainf code) :=
  Sys2Proof.encode_and_highMask _ 8 _ _ (by rw [Sys2Proof.Laws.MatchesTableRow.row]; decide)
    (by rw [Sys2Proof.Laws.MatchesTableRow.row]; decide)
    (by simp [Sys2Proof.encodeNat, Sys2Proof.Laws.MatchesTableRow.row]; omega)

theorem Sys2Proof.Laws.MatchesTableRow.resb (code : Sys2Proof.Byte) :
    Sys2Proof.Laws.MatchesTableRow.Statement (.resb code) :=
  Sys2Proof.encode_and_highMask _ 8 _ _ (by rw [Sys2Proof.Laws.MatchesTableRow.row]; decide)
    (by rw [Sys2Proof.Laws.MatchesTableRow.row]; decide)
    (by simp [Sys2Proof.encodeNat, Sys2Proof.Laws.MatchesTableRow.row]; omega)
end

