-- ==== Sys2Proof/Laws/State.lean ====
section
/-! SUPPORT. One lemma per field per update of State, so that no proof unfolds a record update. -/

namespace Sys2Proof.Machine

@[simp] theorem State.complete_params (r : Results) (s : State) : (s.complete r).params = s.params := rfl
@[simp] theorem State.complete_cmd (r : Results) (s : State) : (s.complete r).cmd = s.cmd := rfl
@[simp] theorem State.complete_cmdValid (r : Results) (s : State) : (s.complete r).cmdValid = s.cmdValid := rfl
@[simp] theorem State.complete_rst (r : Results) (s : State) : (s.complete r).rst = s.rst := rfl
@[simp] theorem State.complete_rd (r : Results) (s : State) : (s.complete r).rd = s.rd := rfl
@[simp] theorem State.complete_inputs (r : Results) (s : State) : (s.complete r).inputs = s.inputs := rfl
@[simp] theorem State.complete_status (r : Results) (s : State) : (s.complete r).status = some statusOk := rfl
@[simp] theorem State.complete_faultInfo (r : Results) (s : State) : (s.complete r).faultInfo = none := rfl
@[simp] theorem State.complete_outByte (r : Results) (s : State) : (s.complete r).outByte = r.byte := rfl
@[simp] theorem State.complete_outInt (r : Results) (s : State) : (s.complete r).outInt = r.int := rfl
@[simp] theorem State.complete_outSnap (r : Results) (s : State) : (s.complete r).outSnap = r.snap := rfl
@[simp] theorem State.complete_outF64 (r : Results) (s : State) : (s.complete r).outF64 = r.f64 := rfl

@[simp] theorem State.raise_params (f : CommandFault) (s : State) : (s.raise f).params = s.params := rfl
@[simp] theorem State.raise_cmd (f : CommandFault) (s : State) : (s.raise f).cmd = s.cmd := rfl
@[simp] theorem State.raise_cmdValid (f : CommandFault) (s : State) : (s.raise f).cmdValid = s.cmdValid := rfl
@[simp] theorem State.raise_rst (f : CommandFault) (s : State) : (s.raise f).rst = s.rst := rfl
@[simp] theorem State.raise_rd (f : CommandFault) (s : State) : (s.raise f).rd = s.rd := rfl
@[simp] theorem State.raise_inputs (f : CommandFault) (s : State) : (s.raise f).inputs = s.inputs := rfl
@[simp] theorem State.raise_status (f : CommandFault) (s : State) : (s.raise f).status = some (faultStatus f) := rfl
@[simp] theorem State.raise_faultInfo (f : CommandFault) (s : State) : (s.raise f).faultInfo = some (faultCode f) := rfl
@[simp] theorem State.raise_outByte (f : CommandFault) (s : State) : (s.raise f).outByte = none := rfl
@[simp] theorem State.raise_outInt (f : CommandFault) (s : State) : (s.raise f).outInt = none := rfl
@[simp] theorem State.raise_outSnap (f : CommandFault) (s : State) : (s.raise f).outSnap = none := rfl
@[simp] theorem State.raise_outF64 (f : CommandFault) (s : State) : (s.raise f).outF64 = none := rfl

@[simp] theorem State.clearPorts_params (s : State) : (s.clearPorts).params = s.params := rfl
@[simp] theorem State.clearPorts_cmd (s : State) : (s.clearPorts).cmd = s.cmd := rfl
@[simp] theorem State.clearPorts_cmdValid (s : State) : (s.clearPorts).cmdValid = s.cmdValid := rfl
@[simp] theorem State.clearPorts_rst (s : State) : (s.clearPorts).rst = s.rst := rfl
@[simp] theorem State.clearPorts_rd (s : State) : (s.clearPorts).rd = s.rd := rfl
@[simp] theorem State.clearPorts_inputs (s : State) : (s.clearPorts).inputs = s.inputs := rfl
@[simp] theorem State.clearPorts_status (s : State) : (s.clearPorts).status = none := rfl
@[simp] theorem State.clearPorts_faultInfo (s : State) : (s.clearPorts).faultInfo = none := rfl
@[simp] theorem State.clearPorts_outByte (s : State) : (s.clearPorts).outByte = none := rfl
@[simp] theorem State.clearPorts_outInt (s : State) : (s.clearPorts).outInt = none := rfl
@[simp] theorem State.clearPorts_outSnap (s : State) : (s.clearPorts).outSnap = none := rfl
@[simp] theorem State.clearPorts_outF64 (s : State) : (s.clearPorts).outF64 = none := rfl

@[simp] theorem State.present_params (w : CommandWord) (s : State) : (s.present w).params = s.params := rfl
@[simp] theorem State.present_cmd (w : CommandWord) (s : State) : (s.present w).cmd = w := rfl
@[simp] theorem State.present_cmdValid (w : CommandWord) (s : State) : (s.present w).cmdValid = true := rfl
@[simp] theorem State.present_rst (w : CommandWord) (s : State) : (s.present w).rst = false := rfl
@[simp] theorem State.present_rd (w : CommandWord) (s : State) : (s.present w).rd = none := rfl
@[simp] theorem State.present_inputs (w : CommandWord) (s : State) : (s.present w).inputs = s.inputs := rfl
@[simp] theorem State.present_status (w : CommandWord) (s : State) : (s.present w).status = s.status := rfl
@[simp] theorem State.present_faultInfo (w : CommandWord) (s : State) : (s.present w).faultInfo = s.faultInfo := rfl
@[simp] theorem State.present_outByte (w : CommandWord) (s : State) : (s.present w).outByte = s.outByte := rfl
@[simp] theorem State.present_outInt (w : CommandWord) (s : State) : (s.present w).outInt = s.outInt := rfl
@[simp] theorem State.present_outSnap (w : CommandWord) (s : State) : (s.present w).outSnap = s.outSnap := rfl
@[simp] theorem State.present_outF64 (w : CommandWord) (s : State) : (s.present w).outF64 = s.outF64 := rfl

@[simp] theorem State.withFetchWord_params (nbits w : Nat) (s : State) : (s.withFetchWord nbits w).params = s.params := rfl
@[simp] theorem State.withFetchWord_cmd (nbits w : Nat) (s : State) : (s.withFetchWord nbits w).cmd = BitVec.ofNat 64 (w % 2 ^ nbits) := rfl
@[simp] theorem State.withFetchWord_cmdValid (nbits w : Nat) (s : State) : (s.withFetchWord nbits w).cmdValid = true := rfl
@[simp] theorem State.withFetchWord_rst (nbits w : Nat) (s : State) : (s.withFetchWord nbits w).rst = false := rfl
@[simp] theorem State.withFetchWord_rd (nbits w : Nat) (s : State) : (s.withFetchWord nbits w).rd = none := rfl
@[simp] theorem State.withFetchWord_inputs (nbits w : Nat) (s : State) : (s.withFetchWord nbits w).inputs = s.inputs := rfl
@[simp] theorem State.withFetchWord_status (nbits w : Nat) (s : State) : (s.withFetchWord nbits w).status = s.status := rfl
@[simp] theorem State.withFetchWord_faultInfo (nbits w : Nat) (s : State) : (s.withFetchWord nbits w).faultInfo = s.faultInfo := rfl
@[simp] theorem State.withFetchWord_outByte (nbits w : Nat) (s : State) : (s.withFetchWord nbits w).outByte = s.outByte := rfl
@[simp] theorem State.withFetchWord_outInt (nbits w : Nat) (s : State) : (s.withFetchWord nbits w).outInt = s.outInt := rfl
@[simp] theorem State.withFetchWord_outSnap (nbits w : Nat) (s : State) : (s.withFetchWord nbits w).outSnap = s.outSnap := rfl
@[simp] theorem State.withFetchWord_outF64 (nbits w : Nat) (s : State) : (s.withFetchWord nbits w).outF64 = s.outF64 := rfl

@[simp] theorem State.drive_params (s : State) : s.drive.params = s.params := by
  unfold State.drive; split <;> rfl

@[simp] theorem State.drive_status (s : State) : s.drive.status = s.status := by
  unfold State.drive; split <;> rfl

@[simp] theorem State.drive_faultInfo (s : State) : s.drive.faultInfo = s.faultInfo := by
  unfold State.drive; split <;> rfl

@[simp] theorem State.drive_outByte (s : State) : s.drive.outByte = s.outByte := by
  unfold State.drive; split <;> rfl

@[simp] theorem State.drive_outInt (s : State) : s.drive.outInt = s.outInt := by
  unfold State.drive; split <;> rfl

@[simp] theorem State.drive_outSnap (s : State) : s.drive.outSnap = s.outSnap := by
  unfold State.drive; split <;> rfl

@[simp] theorem State.drive_outF64 (s : State) : s.drive.outF64 = s.outF64 := by
  unfold State.drive; split <;> rfl

@[simp] theorem State.respond_params (r : Response) (s : State) : (s.respond r).params = s.params := by
  cases r <;> rfl

@[simp] theorem State.respond_cmd (r : Response) (s : State) : (s.respond r).cmd = s.cmd := by
  cases r <;> rfl

@[simp] theorem State.respond_cmdValid (r : Response) (s : State) : (s.respond r).cmdValid = s.cmdValid := by
  cases r <;> rfl

@[simp] theorem State.respond_rst (r : Response) (s : State) : (s.respond r).rst = s.rst := by
  cases r <;> rfl

@[simp] theorem State.respond_rd (r : Response) (s : State) : (s.respond r).rd = s.rd := by
  cases r <;> rfl

@[simp] theorem State.respond_inputs (r : Response) (s : State) : (s.respond r).inputs = s.inputs := by
  cases r <;> rfl

@[simp] theorem State.resetWith_params (p : Params) : (State.resetWith p).params = p := rfl
@[simp] theorem State.resetWith_cmd (p : Params) : (State.resetWith p).cmd = 0 := rfl
@[simp] theorem State.resetWith_cmdValid (p : Params) : (State.resetWith p).cmdValid = false := rfl
@[simp] theorem State.resetWith_rst (p : Params) : (State.resetWith p).rst = false := rfl
@[simp] theorem State.resetWith_rd (p : Params) : (State.resetWith p).rd = none := rfl
@[simp] theorem State.resetWith_inputs (p : Params) : (State.resetWith p).inputs = [] := rfl
@[simp] theorem State.resetWith_status (p : Params) : (State.resetWith p).status = none := rfl
@[simp] theorem State.resetWith_faultInfo (p : Params) : (State.resetWith p).faultInfo = none := rfl
@[simp] theorem State.resetWith_outByte (p : Params) : (State.resetWith p).outByte = none := rfl
@[simp] theorem State.resetWith_outInt (p : Params) : (State.resetWith p).outInt = none := rfl
@[simp] theorem State.resetWith_outSnap (p : Params) : (State.resetWith p).outSnap = none := rfl
@[simp] theorem State.resetWith_outF64 (p : Params) : (State.resetWith p).outF64 = none := rfl

@[simp] theorem State.respond_ok (r : Results) (s : State) : s.respond (.ok r) = s.complete r := rfl

@[simp] theorem State.respond_error (f : CommandFault) (s : State) : s.respond (.error f) = s.raise f := rfl

end Sys2Proof.Machine
end

