-- ==== Sys2Proof/Laws/Step.lean ====
section
/-! SUPPORT. What a command and a step can do, said once: a command answers with a response that depends on the
parameters and the command alone, and a step reads, resets, executes one word or does nothing. -/

namespace Sys2Proof.Machine

/-- The response of each command, from the parameters and the command alone (10_state.md R26). -/
def responseOf (p : Params) : Instr → Response
  | .encfg ch res gain => encfgResponse p ch res gain
  | .decode nb res raw => decodeResponse nb res raw
  | .scale gain res count => scaleResponse gain res count
  | .convert gain res raw => convertResponse gain res raw
  | .gainf code => gainfResponse code
  | .resb code => resbResponse code

/-- The response of each word. -/
def wordResponse (p : Params) (w : CommandWord) : Response :=
  match decode w with
  | .ok i => responseOf p i
  | .error r => .error (.illegalCommand r)

theorem exec_eq_answer (i : Instr) (s : State) : exec i s = answer (responseOf s.params i) s := by
  cases i <;> rfl

theorem execWord_eq_answer (w : CommandWord) (s : State) :
    execWord w s = answer (wordResponse s.params w) s := by
  unfold execWord wordResponse
  cases decode w with
  | ok i => exact exec_eq_answer i s
  | error r => rfl

theorem answer_eq_next (r : Response) (s : State) : answer r s = .next (s.respond r) := rfl

/-- The four things a step can do, in the order in which it asks. -/
theorem step_cases (s : State) :
    (∃ p, s.rd = some p ∧ s.port p = none ∧ step s = .fault (.portHoldsNoValue p)) ∨
    (readFault s = none ∧ s.rst = true ∧ step s = .next s.clearPorts.drive) ∨
    (readFault s = none ∧ s.rst = false ∧ s.cmdValid = true ∧
      step s = .next (s.respond (wordResponse s.params s.cmd)).drive) ∨
    (readFault s = none ∧ s.rst = false ∧ s.cmdValid = false ∧ step s = .next s.drive) := by
  cases hf : readFault s with
  | some f =>
    left
    unfold readFault at hf
    split at hf
    · simp at hf
    · rename_i p hp
      split at hf
      · simp at hf
      · rename_i hn
        refine ⟨p, hp, by simpa using hn, ?_⟩
        simp [step, readFault, hp, hn]
  | none =>
    right
    cases hr : s.rst with
    | true => left; simp [step, hf, hr]
    | false =>
      right
      cases hv : s.cmdValid with
      | true => left; simp [step, hf, hr, hv, execWord_eq_answer, answer_eq_next, thenDrive]
      | false => right; simp [step, hf, hr, hv]

/-- A ready block answers its word. -/
theorem step_ready {s : State} {w : CommandWord} (h : s.ready w) :
    step s = .next (s.respond (wordResponse s.params w)).drive := by
  obtain ⟨rfl, h1, h2, h3⟩ := h
  simp [step, h1, h2, h3, execWord_eq_answer, answer, thenDrive]

/-- Reading a port that holds no value. -/
theorem readFault_of_noValue {s : State} {p : Port} (h : s.rd = some p) (h2 : s.port p = none) :
    readFault s = some (.portHoldsNoValue p) := by
  simp [readFault, h, h2]

/-- A step with reset asserted. -/
theorem step_reset {s : State} (h : readFault s = none) (hr : s.rst = true) :
    step s = .next s.clearPorts.drive := by
  simp [step, h, hr]

/-- Where a step answers a next state, it is one of three. -/
theorem step_next_cases {s t : State} (h : step s = .next t) :
    t = s.clearPorts.drive ∨ t = (s.respond (wordResponse s.params s.cmd)).drive ∨ t = s.drive := by
  rcases step_cases s with ⟨p, -, -, e⟩ | ⟨-, -, e⟩ | ⟨-, -, -, e⟩ | ⟨-, -, -, e⟩ <;>
    rw [e] at h <;> simp_all

theorem State.respond_ok_withPorts (r : Results) (s : State) :
    s.respond (.ok r) = s.withPorts (okView r.byte r.int r.snap r.f64) := rfl

theorem State.respond_error_withPorts (f : CommandFault) (s : State) :
    s.respond (.error f) = s.withPorts (faultView (faultStatus f) (faultCode f)) := rfl

@[simp] theorem State.view_drive (s : State) : s.drive.view = s.view := by
  simp [State.view]

theorem State.view_respond (r : Response) (s t : State) : (s.respond r).view = (t.respond r).view := by
  cases r <;> simp [State.view]

@[simp] theorem State.responseLegal_drive (s : State) : s.drive.responseLegal = s.responseLegal := by
  simp [State.responseLegal, State.portsLegal, State.valuesLegal, State.noResults, State.resultRow]

end Sys2Proof.Machine
end

