-- ==== Sys2Proof/Laws/Protocol.lean ====
section
/-! SUPPORT. What a command that the host's request issues can do, said once. -/

namespace Sys2Proof.Machine

/-- Issuing a word never stops: the block answers with the word's response, and the host's next action goes on the pins. -/
theorem issue_eq (i : Instr) (block : State) :
    issue i block = some ((block.present (encode i)).respond (wordResponse block.params (encode i))).drive := by
  have h : (block.present (encode i)).ready (encode i) := ⟨rfl, rfl, rfl, rfl⟩
  rw [issue, step_ready h]
  rfl

/-- The ports after an issued word show its response, and the parameters are as before, whatever was on the pins. -/
theorem issue_view (i : Instr) (block : State) :
    ∃ t, issue i block = some t ∧ t.params = block.params ∧
      t.view = (block.respond (wordResponse block.params (encode i))).view :=
  ⟨_, issue_eq i block, by simp [State.present], by rw [State.view_drive]; exact State.view_respond _ _ _⟩

end Sys2Proof.Machine
end

