-- ==== Sys2Proof/Laws/VoltageScaler.lean ====
section
/-! SUPPORT. What the scaler's arithmetic does: one rounding, and everything else exact (42_voltage_scaler.md R182). -/

namespace Sys2Proof.Machine

/-- The LSB of a legal resolution: VREF's significand, its exponent lowered by the resolution. -/
theorem lsb_finite {res : Byte} (h : isResolution res = true) :
    unpackF64 (lsb res) = .finite false 0x10624DD2F1A9FC (-50 - res.toNat) := by
  rcases isResolution_cases h with rfl | rfl | rfl | rfl <;> decide
/-- VREF's significand and exponent. -/
theorem vref_finite : unpackF64 vref = .finite false 0x10624DD2F1A9FC (-51) := by decide
/-- A legal gain as a binary64 number: a power of two. -/
theorem f64_gain_finite {g : Byte} (h : isGain g = true) :
    unpackF64 (f64 g.toNat) = .finite false (2^52) (Nat.log2 g.toNat - 52) := by
  rcases isGain_cases h with rfl | rfl | rfl | rfl <;> decide
/-- An integer times a power of two. -/
theorem quot_one (n : Nat) (e : Int) : quot n 1 e = n * 2 ^ e := by simp [quot]


/-- Bounds that keep the numbers of the scaler in the normal range. -/
theorem twiceNormalMin_le_small : (2 : ℚ) ^ (-1021 : Int) ≤ 1 / 2 ^ 60 := by
  refine le_trans (zpow_le_zpow_right₀ one_le_two (show (-1021 : Int) ≤ -60 by norm_num)) (by norm_num)

/-- The same with the least normal number. -/
theorem normalMin_le_small : (2 : ℚ) ^ (-1022 : Int) ≤ 1 / 2 ^ 60 := le_trans (zpow_le_zpow_right₀ one_le_two (by norm_num)) twiceNormalMin_le_small

/-- The scaler's numbers do not overflow. -/
theorem large_lt_overflow : (2 : ℚ) ^ 60 < 2 ^ (1023 : Int) := by
  refine lt_of_lt_of_le ?_ (zpow_le_zpow_right₀ one_le_two (show (61 : Int) ≤ 1023 by norm_num)); norm_num

/-- The voltage of a count that is not zero: the product of count and VREF, rounded once, is a normal number, and the
voltage has its sign and its significand, with the exponent lowered by the resolution and the gain. -/
theorem scaleCore_finite {res gain : Byte} {c : Int} (hr : isResolution res = true) (hg : isGain gain = true)
    (hc : c ≠ 0) (h1 : -(2^31) ≤ c) (h2 : c ≤ 2^31) :
    ∃ m u, unpackF64 (mulRN (f64 c) vref) = .finite (decide (c < 0)) m u ∧ 2^52 ≤ m ∧ m < 2^53 ∧
      (1/2:ℚ) ≤ m * 2 ^ u ∧ (m:ℚ) * 2^u ≤ 2^35 ∧
      unpackF64 (scaleCore c res gain) = .finite (decide (c < 0)) m (u + 1 - res.toNat - Nat.log2 gain.toNat) := by
  have hn : 0 < c.natAbs := by omega
  have hn1 : (1 : ℚ) ≤ c.natAbs := by exact_mod_cast hn
  have hn2 : (c.natAbs : ℚ) ≤ 2 ^ 31 := by exact_mod_cast (show c.natAbs ≤ 2 ^ 31 by omega)
  have q0 : quot c.natAbs 1 0 = c.natAbs := by simp [quot]
  obtain ⟨ma, ua, a1, a2, a3, a4, a5, a6, a7⟩ := roundF64_normal (decide (c < 0)) (e := 0) hn one_pos
    (by rw [q0]; exact le_trans normalMin_le_small (le_trans (by norm_num) hn1)) (by rw [q0]; exact lt_of_le_of_lt (le_trans hn2 (by norm_num)) large_lt_overflow)
  rw [q0] at a7
  have hx : (1:ℚ)/2 ≤ ma * 2 ^ ua ∧ (ma : ℚ) * 2 ^ ua ≤ 2 ^ 32 := by
    have := abs_le.1 a7
    constructor
    · have : (c.natAbs : ℚ) / 2 ^ 53 ≤ c.natAbs / 2 := by gcongr; norm_num
      linarith
    · have : (c.natAbs : ℚ) / 2 ^ 53 ≤ c.natAbs / 1 := by gcongr; norm_num
      norm_num at *; linarith
  have fa : unpackF64 (f64 c) = .finite (decide (c < 0)) ma ua := a1
  have prod : ∀ j : Int, quot (ma * 0x10624DD2F1A9FC) 1 (ua + (-51 + j)) = (ma * 2 ^ ua) * (2305843009213694 / 2 ^ 50) * 2 ^ j := by
    intro j; rw [quot_one, zpow_add₀ two_ne_zero, zpow_add₀ two_ne_zero]; push_cast; norm_num; ring
  have hposM : 0 < ma * 0x10624DD2F1A9FC := by positivity
  have rb : ∀ j : Int, -20 ≤ j → j ≤ 0 → (1:ℚ) / 2 ^ 60 ≤ quot (ma * 0x10624DD2F1A9FC) 1 (ua + (-51 + j)) ∧ quot (ma * 0x10624DD2F1A9FC) 1 (ua + (-51 + j)) ≤ 2 ^ 34 := by
    intro j j1 j2
    rw [prod]
    have z1 : (2:ℚ) ^ (-20 : Int) ≤ 2 ^ j := zpow_le_zpow_right₀ one_le_two j1
    have z2 : (2:ℚ) ^ j ≤ 2 ^ (0:Int) := zpow_le_zpow_right₀ one_le_two j2
    constructor
    · calc (1:ℚ) / 2 ^ 60 ≤ 1/2 * (2305843009213694 / 2 ^ 50) * 2 ^ (-20 : Int) := by norm_num
        _ ≤ _ := by gcongr; exact hx.1
    · calc _ ≤ (2:ℚ) ^ 32 * (2305843009213694 / 2 ^ 50) * 2 ^ (0 : Int) := by gcongr; exact hx.2
        _ ≤ _ := by norm_num
  obtain ⟨m, u, b1, b2, b3, b4, b5, b6, b7⟩ := roundF64_normal (decide (c < 0)) (e := ua + (-51 + 0)) hposM one_pos
    (le_trans normalMin_le_small (rb 0 (by norm_num) le_rfl).1) (lt_of_le_of_lt (le_trans (rb 0 (by norm_num) le_rfl).2 (by norm_num)) large_lt_overflow)
  rw [add_zero] at b1 b7
  have hv : unpackF64 (mulRN (f64 c) vref) = .finite (decide (c < 0)) m u := by
    rw [mulRN_finite fa vref_finite, Bool.xor_false]; exact b1
  obtain ⟨j, hj, j1, j2⟩ : ∃ j : Int, j = 1 - res.toNat ∧ -20 ≤ j ∧ j ≤ 0 := ⟨_, rfl, by rcases isResolution_cases hr with rfl | rfl | rfl | rfl <;> decide, by rcases isResolution_cases hr with rfl | rfl | rfl | rfl <;> decide⟩
  have r0 := rb 0 (by norm_num) le_rfl
  rw [add_zero] at r0
  have rj := rb j j1 j2
  rw [← add_assoc] at rj
  have hl : unpackF64 (mulRN (f64 c) (lsb res)) = .finite (decide (c < 0)) m (u + j) := by
    rw [mulRN_finite fa (lsb_finite hr), Bool.xor_false, show ua + (-50 - (res.toNat : Int)) = ua + -51 + j by omega]
    exact roundF64_shift _ hposM one_pos (le_trans twiceNormalMin_le_small r0.1) (lt_of_le_of_lt (le_trans r0.2 (by norm_num)) large_lt_overflow)
      (le_trans twiceNormalMin_le_small rj.1) (lt_of_le_of_lt (le_trans rj.2 (by norm_num)) large_lt_overflow) b1
  have hval : (1/2:ℚ) ≤ m * 2 ^ u ∧ (m:ℚ) * 2^u ≤ 2^35 := by
    have p0 := prod 0
    rw [add_zero] at p0
    have hq : (1:ℚ) ≤ quot (ma * 0x10624DD2F1A9FC) 1 (ua + -51) := by
      rw [p0]
      calc (1:ℚ) ≤ 1/2 * (2305843009213694 / 2 ^ 50) * 2 ^ (0 : Int) := by norm_num
        _ ≤ _ := by gcongr; exact hx.1
    have hq2 : quot (ma * 0x10624DD2F1A9FC) 1 (ua + -51) / 2 ^ 53 ≤ quot (ma * 0x10624DD2F1A9FC) 1 (ua + -51) / 2 := by gcongr; norm_num
    have := abs_le.1 b7
    constructor <;> linarith [r0.2]
  refine ⟨m, u, hv, b2, b3, hval.1, hval.2, ?_⟩
  have hu1 : -60 < u := by
    have : (2:ℚ) ^ (-1 : Int) < 2 ^ (53 + u) := by
      rw [zpow_add₀ two_ne_zero]
      have : (m:ℚ) < 2 ^ (53:Int) := by exact_mod_cast b3
      calc (2:ℚ) ^ (-1 : Int) = 1/2 := by norm_num
        _ ≤ m * 2 ^ u := hval.1
        _ < _ := by gcongr
    have := (zpow_lt_zpow_iff_right₀ (one_lt_two (α := ℚ))).1 this
    omega
  obtain ⟨L, hL, L1, L2⟩ : ∃ L : Int, L = Nat.log2 gain.toNat ∧ 0 ≤ L ∧ L ≤ 3 := ⟨_, rfl, by omega, by rcases isGain_cases hg with rfl | rfl | rfl | rfl <;> decide⟩
  have hu2 : u < 100 := by
    have : (2:ℚ) ^ (52 + u) < 2 ^ (36 : Int) := by
      rw [zpow_add₀ two_ne_zero]
      have : (2:ℚ) ^ (52:Int) ≤ m := by exact_mod_cast b2
      calc (2:ℚ) ^ (52 : Int) * 2 ^ u ≤ m * 2 ^ u := by gcongr
        _ ≤ 2 ^ 35 := hval.2
        _ < _ := by norm_num
    have := (zpow_lt_zpow_iff_right₀ (one_lt_two (α := ℚ))).1 this
    omega
  rw [scaleCore, divRN_finite hl (f64_gain_finite hg) (by norm_num), Bool.xor_false, ← hL]
  rw [show u + 1 - (res.toNat : Int) - L = u + j - L by omega]
  refine roundF64_exact_normal _ (by omega) (by norm_num) ?_ b2 b3 (by omega) (by omega)
  unfold quot
  rw [show u + j - (L - 52) = (u + j - L) + 52 by ring, zpow_add₀ two_ne_zero (u + j - L)]
  push_cast
  ring

end Sys2Proof.Machine
end

