-- ==== Sys2Proof/Tests/Slice0.lean ====
section
/-! SUPPORT. Tests on fixed values, with the expected results from spec/95_test_vectors.md and from the worked
examples of the rules, and a witness for the hypotheses of every statement. -/

namespace Sys2Proof.Tests

open Sys2Proof Sys2Proof.Machine

/-- The next state, if there is one. -/
def nextOf (o : Host.Outcome State Fault Refusal) : Option State :=
  match o with
  | .next s => some s
  | .fault _ => none
  | .refused _ => none

/-- A block built with this LEGACY_FALLBACK, with a word presented after reset. -/
def ready (legacy : Bool) (w : CommandWord) : State := (State.resetWith { legacyFallback := legacy }).present w

/-- The ports after that word. -/
def portsAfter (legacy : Bool) (w : CommandWord) : Option PortView := (nextOf (step (ready legacy w))).map State.view

/-- A raw response for tests. -/
def raw0 : Raw := { b0 := 0x12, b1 := 0x34, b2 := 0x89, b3 := 0x89 }

/-! ## WellFormed: one ill-formed term for each check (00_scope.md R9) -/

theorem test_wellFormed_legal :
    (Instr.encfg 4 18 8).wellFormed ∧ (Instr.decode 3 18 raw0).wellFormed ∧ (Instr.decode 2 12 raw0).wellFormed ∧
    (Instr.scale 8 14 0).wellFormed ∧ (Instr.convert 1 16 raw0).wellFormed ∧ (Instr.gainf 3).wellFormed ∧
    (Instr.resb 0).wellFormed := by decide

theorem test_illFormed_encfg :
    (Instr.encfg 0 12 1).wellFormed = false ∧ (Instr.encfg 5 12 1).wellFormed = false ∧
    (Instr.encfg 1 13 1).wellFormed = false ∧ (Instr.encfg 1 12 3).wellFormed = false := by decide

theorem test_illFormed_decode :
    (Instr.decode 2 17 raw0).wellFormed = false ∧ (Instr.decode 2 18 raw0).wellFormed = false ∧
    (Instr.decode 3 16 raw0).wellFormed = false ∧ (Instr.decode 4 18 raw0).wellFormed = false := by decide

theorem test_illFormed_scaling :
    (Instr.scale 1 15 0).wellFormed = false ∧ (Instr.scale 0 16 0).wellFormed = false ∧
    (Instr.convert 1 20 raw0).wellFormed = false ∧ (Instr.convert 16 16 raw0).wellFormed = false := by decide

theorem test_illFormed_helpers :
    (Instr.gainf 4).wellFormed = false ∧ (Instr.resb 255).wellFormed = false := by decide

/-! ## Decode: one word of each row, written out from the formats of R62 to R66 -/

/-- R62: op 0001, 36 reserved zeros, ch 00000010, res 00010000, gain 00000010. -/
theorem test_decode_encfg :
    decode 0b0001000000000000000000000000000000000000000000100001000000000010 = .ok (.encfg 2 16 2) := by decide

/-- R63: op 0010, 12 reserved zeros, nb 00000010, res 00010000, raw 0x12 0x34 0x88 0x89. -/
theorem test_decode_decode :
    decode 0b0010000000000000000000100001000000010010001101001000100010001001 =
      .ok (.decode 2 16 { b0 := 0x12, b1 := 0x34, b2 := 0x88, b3 := 0x89 }) := by decide

/-- R64: op 0011, 12 reserved zeros, gain 00001000, res 00010010, count -2. -/
theorem test_decode_scale :
    decode 0b0011000000000000000010000001001011111111111111111111111111111110 =
      .ok (.scale 8 18 (BitVec.ofInt 32 (-2))) := by decide

/-- R65: op 0100, 12 reserved zeros, gain 00000010, res 00001110, raw 0xE0 0x01 0x84 0x55. -/
theorem test_decode_convert :
    decode 0b0100000000000000000000100000111011100000000000011000010001010101 =
      .ok (.convert 2 14 { b0 := 0xE0, b1 := 0x01, b2 := 0x84, b3 := 0x55 }) := by decide

/-- R66: op 0101, 52 reserved zeros, code 00000010. -/
theorem test_decode_gainf :
    decode 0b0101000000000000000000000000000000000000000000000000000000000010 = .ok (.gainf 2) := by decide

/-- R66: op 0110, 52 reserved zeros, code 00000011. -/
theorem test_decode_resb :
    decode 0b0110000000000000000000000000000000000000000000000000000000000011 = .ok (.resb 3) := by decide

/-- 95_test_vectors.md 2.8, 2.3 and 2.5: reserved ops, and a reserved bit of each format. -/
theorem test_decode_rejects :
    decode 0x0000000000000000 = .error .reservedOp ∧ decode 0x7000000000000000 = .error .reservedOp ∧
    decode 0xF000000000000000 = .error .reservedOp ∧ decode 0x1000000100011002 = .error .reservedBits ∧
    decode 0x2001021012348989 = .error .reservedBits ∧ decode 0x3800011000000001 = .error .reservedBits ∧
    decode 0x4001011000000001 = .error .reservedBits ∧ decode 0x5000000000000102 = .error .reservedBits ∧
    decode 0x6000000000000104 = .error .reservedBits := by decide

/-- The examples of R81. -/
theorem test_encode_examples :
    encode (.encfg 2 16 2) = 0x1000000000021002 ∧
    encode (.decode 2 16 { b0 := 0x12, b1 := 0x34, b2 := 0x88, b3 := 0x88 }) = 0x2000021012348888 ∧
    encode (.scale 8 18 0xFFFFFFFF) = 0x30000812FFFFFFFF := by decide

theorem test_decodeTableWord :
    decodeTableWord 64 0x6000000000000003 = some (.resb 3) ∧ decodeTableWord 64 0x7000000000000000 = none ∧
    decodeTableWord 8 0x03 = none ∧ decodeTableWord 72 0x10000000000000000 = none := by
  refine ⟨?_, ?_, ?_, ?_⟩ <;> decide

/-! ## Commands (at most two tests each) -/

/-- 95_test_vectors.md 2.1. -/
theorem test_encfg_legal : portsAfter false 0x1000000000031204 = some (okView (some 0xCE) (some 3) none none) := by
  decide

/-- 95_test_vectors.md 2.2: both fallbacks at once, and the same word without them. -/
theorem test_encfg_fallback :
    portsAfter true 0x100000000004FFFF = some (okView (some 0xE0) (some 2) none none) ∧
    portsAfter false 0x100000000004FFFF = some (faultView 1 2) := by decide

/-- 95_test_vectors.md 2.4: the most negative 18-bit count. -/
theorem test_decode_negative :
    portsAfter false 0x20000312FE00008F =
      some (okView none (some (BitVec.ofInt 32 (-131071))) (some 0x0000008F0112) none) := by decide

/-- 95_test_vectors.md L1-4b, the source's bytes read literally; and 2.5, the resolution checked before the length. -/
theorem test_decode_literal_and_fault :
    portsAfter false 0x20000210001234C1 = some (okView none (some 18) (some 0x000012341210) none) ∧
    portsAfter true 0x2000031112348989 = some (faultView 1 2) := by decide

/-- 95_test_vectors.md 2.6: a count whose rounding is visible. -/
theorem test_scale_rounding :
    portsAfter false 0x3000011000000012 = some (okView none none none (some 0x3F526E978D4FDF3C)) := by decide +kernel

/-- 95_test_vectors.md 2.6: a 32-bit extreme, zero, and gain 0. -/
theorem test_scale_extremes :
    portsAfter false 0x3000081280000000 = some (okView none none none (some 0xC0B0624DD2F1A9FC)) ∧
    portsAfter false 0x3000010C00000000 = some (okView none none none (some 0)) ∧
    portsAfter false 0x3000001000000064 = some (faultView 1 3) := by decide

/-- 95_test_vectors.md 2.7. -/
theorem test_convert_negative :
    portsAfter false 0x4000040EE0008400 =
      some (okView none (some (BitVec.ofInt 32 (-8191))) (some 0x00000084010E) (some 0xBFE061CAC083126F)) := by decide

/-- 95_test_vectors.md 2.7 and its faults. -/
theorem test_convert_sixteen_bits :
    portsAfter false 0x4000011080008800 =
      some (okView none (some 1) (some 0x008000880110) (some 0x3F10624DD2F1A9FC)) ∧
    portsAfter true 0x4000030D1234A0A0 = some (faultView 1 2) := by decide +kernel

/-- 95_test_vectors.md 2.3. -/
theorem test_gainf :
    portsAfter false 0x5000000000000003 = some (okView (some 8) none none none) ∧
    portsAfter true 0x5000000000000004 = some (faultView 1 5) := by decide

/-- 95_test_vectors.md 2.3. -/
theorem test_resb :
    portsAfter false 0x6000000000000003 = some (okView (some 18) none none none) ∧
    portsAfter false 0x6000000000000004 = some (faultView 1 5) := by decide

/-- 95_test_vectors.md 2.8. -/
theorem test_illegal_words :
    portsAfter false 0x0000000000000000 = some (faultView 2 1) ∧
    portsAfter false 0x1800000000001001 = some (faultView 2 2) := by decide

/-! ## Pins and ports -/

/-- R32: a read after reset faults. -/
theorem test_read_after_reset : ∀ p : Port, nextOf (step { State.reset with rd := some p }) = none := by
  intro p; cases p <;> decide

/-- R24: out.int holds no value after GAINF, and out.byte does. -/
theorem test_read_after_gainf :
    ((nextOf (step (ready false 0x5000000000000002))).bind
      fun s => nextOf (step { s with rd := some .outByte })).isSome = true ∧
    ((nextOf (step (ready false 0x5000000000000002))).bind
      fun s => nextOf (step { s with rd := some .outInt })).isSome = false := by decide

/-- R260: a command that reset cuts has no response. -/
theorem test_cut_command :
    (nextOf (step { ready true 0x6000000000000003 with rst := true })).map (fun s => (s.view, s.params.legacyFallback)) =
      some (emptyView, true) := by decide

/-- 95_test_vectors.md P5, its last three lines, presented by the host one after the other. -/
theorem test_commands_in_a_row :
    (nextOf (runSteps 4 { State.reset with inputs :=
      [.command 0x2000031012348989, .command 0x6000000000000003, .command 0x5000000000000002] })).map State.view =
      some (okView (some 4) none none none) := by decide

/-! ## The host's request: 95_test_vectors.md P1, P3 (attempt 1), P4 -/

/-- P1: raw 0x12348989. -/
def requestP1 (viaConvert : Bool) : Driver :=
  Driver.start State.reset { address := 0x68, ch := 1, res := 16, gain := 2 }
    { writeOk := true, readBytes := some raw0 } viaConvert 99 0

theorem test_request_success :
    (requestP1 true).run.analog = 0x3FC2A3D70A3D70A4 ∧ (requestP1 true).run.diag = 0x001234893410 ∧
    (requestP1 false).run.analog = 0x3FC2A3D70A3D70A4 ∧
    (requestP1 true).run.events = [HostEvent.write 0x68 0x89, HostEvent.delay 116, HostEvent.read 0x68] := by decide

theorem test_request_write_failure :
    let d := (Driver.start State.reset { address := 0x68, ch := 3, res := 18, gain := 4 }
      { writeOk := false, readBytes := none } true 99 0).run
    d.ok = some false ∧ d.analog = 99 ∧ d.events = [HostEvent.write 0x68 0xCE] ∧ d.commands = [.encfg 3 18 4] ∧
    d.block.view = okView (some 0xCE) (some 3) none none := by decide

theorem test_request_fallback :
    let d := (Driver.start (State.resetWith { legacyFallback := true }) { address := 0x68, ch := 2, res := 13, gain := 3 }
      { writeOk := true, readBytes := some { b0 := 0x12, b1 := 0x34, b2 := 0xA0, b3 := 0xA0 } } true 99 0).run
    d.ok = some false ∧ d.analog = 99 ∧ d.block.faultInfo = some 2 ∧
    d.events = [HostEvent.write 0x68 0xA0, HostEvent.delay 550, HostEvent.read 0x68] ∧
    d.commands.length = 2 := by decide

/-! ## Witnesses: the hypotheses of the statements can be met -/

theorem ready_ready (legacy : Bool) (w : CommandWord) : (ready legacy w).ready w := ⟨rfl, rfl, rfl, rfl⟩

theorem witness_EncodeOfDecodeIsIdentity : ∃ w i, decode w = .ok i := ⟨0x5000000000000001, .gainf 1, by decide⟩

theorem witness_ReservedOpIsIllegal : ∃ s₁ s₂ s₃ : State, ∃ w₁ w₂ w₃ : CommandWord,
    s₁.ready w₁ ∧ Reference.bits w₁.toNat 63 60 = 0 ∧ s₂.ready w₂ ∧ Reference.bits w₂.toNat 63 60 = 7 ∧
    s₃.ready w₃ ∧ Reference.bits w₃.toNat 63 60 = 15 :=
  ⟨_, _, _, 0x0000000000000000, 0x7000000000000000, 0xF000000000000000,
    ready_ready false _, by decide, ready_ready false _, by decide, ready_ready false _, by decide⟩

theorem witness_ReservedBitsAreIllegal : ∃ s : State, ∃ w w' : CommandWord, s.ready w ∧
    Reference.bits w.toNat 63 60 = 1 ∧ Reference.reserved w.toNat ≠ 0 ∧
    Reference.bits w'.toNat 63 60 = 6 ∧ Reference.reserved w'.toNat = 0 :=
  ⟨_, 0x1000000001000000, 0x60000000000000FF, ready_ready false _, by decide, by decide, by decide, by decide⟩

theorem witness_DecodeAExpands : ∃ r r' : Byte, Reference.legalRes r.toNat ∧ ¬ Reference.legalRes r'.toNat :=
  ⟨18, 17, by unfold Reference.legalRes; decide, by unfold Reference.legalRes; decide⟩

theorem witness_StepRunsTheDecodedCommand : ∃ s w i, State.ready s w ∧ decode w = .ok i :=
  ⟨_, 0x6000000000000003, .resb 3, ready_ready false _, by decide⟩

theorem witness_idle_step : ∃ s : State, ∃ p : Port, s.cmdValid = false ∧ s.rst = false ∧ readFault s = none ∧
    s.rd = some p ∧ (s.port p).isSome = true ∧ s.inputs ≠ [] :=
  ⟨{ State.reset with rd := some .outByte, outByte := some 7, inputs := [.reset] }, .outByte, rfl, rfl, rfl, rfl, rfl,
    by decide⟩

theorem witness_OneExecutionPerStrobe : ∃ s t : State, s.inputs = [] ∧ s.cmdValid = true ∧ step s = .next t :=
  ⟨ready false 0x6000000000000003, _, rfl, rfl, step_ready (ready_ready false _)⟩

theorem witness_ResetLeavesNoValues : ∃ s s' : State, ∃ p : Port, s.rst = true ∧ s.cmdValid = true ∧
    readFault s = none ∧ s'.view = emptyView ∧ s'.rd = some p :=
  ⟨{ ready false 0 with rst := true }, { State.reset with rd := some .outInt }, .outInt, rfl, rfl, rfl, rfl, rfl⟩

theorem witness_CutCommandHasNoResponse : ∃ s w, State.ready s w := ⟨_, 0, ready_ready false _⟩

theorem witness_ReadFaultsExactlyOnNoValue : ∃ s s' : State, ∃ p : Port, ∃ v, s.rd = some p ∧ s.port p = none ∧
    s'.rd = some p ∧ s'.port p = some v :=
  ⟨{ State.reset with rd := some .outByte }, { State.reset with rd := some .outByte, outByte := some 7 }, .outByte, 7#8,
    rfl, rfl, rfl, rfl⟩

theorem witness_RunsWithoutReadsAreSafe :
    State.readsNothing { ready false 0 with inputs := [.command 1, .cutCommand 2, .reset] } = true := by decide

theorem witness_EveryWordGetsItsSpecifiedResponse : ∃ s w, State.ready s w ∧ s.params.legacyFallback = true :=
  ⟨_, 0x1000000000010D01, ready_ready true _, rfl⟩

/-- One command of each row completes with OK (ResultPortsByCommand, FaultsLeaveNoResult). -/
theorem witness_ResultPortsByCommand :
    ∀ i ∈ [Instr.encfg 1 12 1, .decode 3 18 raw0, .scale 1 12 5, .convert 8 14 raw0, .gainf 0, .resb 0],
      (nextOf (exec i State.reset)).map State.status = some (some 0) := by decide

theorem witness_FaultsLeaveNoResult :
    ∀ i ∈ [Instr.encfg 0 12 1, .decode 3 12 raw0, .scale 1 13 5, .convert 9 14 raw0, .gainf 4, .resb 4],
      (nextOf (exec i State.reset)).map State.status = some (some 1) := by decide

theorem witness_ResponseDependsOnWordAlone : ∃ s₁ s₂ w, s₁ ≠ s₂ ∧ s₁.params = s₂.params ∧ State.ready s₁ w ∧
    State.ready s₂ w :=
  ⟨ready false 5, { ready false 5 with outByte := some 1 }, 5, by decide, rfl, ready_ready _ _, rfl, rfl, rfl, rfl⟩

theorem witness_LegacyFallbackConcernsEncfgAlone : ∃ i : Instr, ∀ ch res gain, i ≠ .encfg ch res gain :=
  ⟨.gainf 0, by intro _ _ _ h; cases h⟩

theorem witness_LastCommandDecidesTheResponse : ∃ s : State, ∃ (ws : List CommandWord) (w : CommandWord),
    s.cmdValid = false ∧ s.rst = false ∧ s.rd = none ∧ ws.length = 2 ∧ s.inputs = ws.map Input.command ++ [Input.command w] :=
  ⟨{ State.reset with inputs := [.command 0, .command 1, .command 2] }, [0, 1], 2, rfl, rfl, rfl, rfl, rfl⟩

theorem witness_StepKeepsResponseLegal : ∃ s t : State, s.responseLegal = true ∧ step s = .next t :=
  ⟨ready false 0x6000000000000003, _, by decide, step_ready (ready_ready false _)⟩

/-- The boundary operands of ENCFG: the first and the last channel, and the values just outside each set. -/
theorem witness_encfg_operands :
    (1 ≤ (1 : Byte).toNat ∧ (4 : Byte).toNat ≤ 4) ∧ ((0 : Byte).toNat < 1 ∧ 4 < (5 : Byte).toNat) ∧
    Reference.legalRes (12 : Byte).toNat ∧ Reference.legalRes (18 : Byte).toNat ∧ ¬ Reference.legalRes (13 : Byte).toNat ∧
    Reference.legalGain (1 : Byte).toNat ∧ Reference.legalGain (8 : Byte).toNat ∧
    ¬ Reference.legalGain (0 : Byte).toNat ∧
    (ready true 0).params.legacyFallback = true ∧ (ready false 0).params.legacyFallback = false := by
  unfold Reference.legalRes Reference.legalGain; decide

theorem witness_EncfgFieldsReadBack : ∃ s t b, s.params.legacyFallback = false ∧
    exec (.encfg 4 18 8) s = .next t ∧ t.outByte = some b :=
  ⟨State.reset, _, _, rfl, exec_eq_answer _ _, rfl⟩

theorem witness_EncfgFieldsReadBack_legacy : ∃ s t t', s.params.legacyFallback = true ∧
    exec (.encfg 4 13 3) s = .next t ∧ exec (.encfg 4 12 1) s = .next t' ∧ t.outByte = t'.outByte ∧
    t.outByte = some 0xE0 :=
  ⟨State.resetWith { legacyFallback := true }, _, _, rfl, exec_eq_answer _ _, exec_eq_answer _ _, rfl, rfl⟩

theorem witness_ConfigurationBytesOfLegalTriples :
    legalChannels.contains 4 ∧ legalResolutions.contains 18 ∧ legalGains.contains 8 ∧
    (0x80 ≤ (0x80 : Byte).toNat ∧ (0xEF : Byte).toNat ≤ 0xEF ∧ (0x80 : Byte).getLsbD 4 = false ∧
      (0xEF : Byte).getLsbD 4 = false) := by decide

theorem witness_helper_codes : (3 : Byte).toNat ≤ 3 ∧ 3 < (4 : Byte).toNat := by decide

theorem witness_decode_operands :
    (Reference.legalRes (18 : Byte).toNat ∧ (3 : Byte).toNat = Reference.payload (18 : Byte).toNat) ∧
    (Reference.legalRes (12 : Byte).toNat ∧ (2 : Byte).toNat = Reference.payload (12 : Byte).toNat) ∧
    (Reference.legalRes (16 : Byte).toNat ∧ (3 : Byte).toNat ≠ Reference.payload (16 : Byte).toNat) ∧
    ¬ Reference.legalRes (17 : Byte).toNat := by
  unfold Reference.legalRes; decide

theorem witness_DecodeAlwaysSucceedsOnLegalOperands : ∃ s, State.ready s (encode (.decode 3 18 raw0)) ∧
    legalResolutions.contains 18 ∧ (3 : Byte).toNat = Reference.payload (18 : Byte).toNat :=
  ⟨_, ready_ready false _, by decide, by decide⟩

theorem witness_DecodeAlwaysSucceedsOnLegalOperands_fault : ∃ s t, exec (.decode 3 16 raw0) s = .next t ∧
    t.status ≠ some 0 :=
  ⟨State.reset, _, exec_eq_answer _ _, by decide⟩

/-- Each resolution, at the first byte's boundary values 0x7F and 0x80. -/
theorem witness_AdjustedCountRanges :
    ∀ c ∈ [(2, 12), (2, 14), (2, 16), (3, 18)], ∀ b ∈ [(0x7F : Byte), 0x80],
      ((nextOf (exec (.decode (BitVec.ofNat 8 c.1) (BitVec.ofNat 8 c.2) ⟨b, 0xFF, 0xFF, 0⟩) State.reset)).bind
        State.outInt).isSome = true := by decide

theorem witness_EchoReachesOnlyTheSnapshot : ∃ s t t', exec (.decode 2 16 ⟨1, 2, 3, 4⟩) s = .next t ∧
    exec (.decode 2 16 ⟨1, 2, 5, 4⟩) s = .next t' ∧ t.outSnap ≠ t'.outSnap ∧ (16 : Byte) ≠ 18 :=
  ⟨State.reset, _, _, exec_eq_answer _ _, exec_eq_answer _ _, by decide, by decide⟩

theorem witness_IntegersConvertExactly : ((2 : Int) ^ 53 - 1).natAbs < 2 ^ 53 ∧ (1 - (2 : Int) ^ 53).natAbs < 2 ^ 53 := by
  decide

theorem one_value : f64Value 0x3FF0000000000000 = some 1 := by
  rw [f64Value, show unpackF64 0x3FF0000000000000 = .finite false (2 ^ 52) (-52) by decide]
  simp only [Binary64.toRat]
  norm_num

theorem one_le_maxFinite : 1 ≤ Reference.maxFinite := by
  rw [Reference.maxFinite]
  exact one_le_mul_of_one_le_of_one_le (by norm_num) (one_le_pow₀ (by norm_num))

theorem infinity_value : f64Value 0x7FF0000000000000 = none := by
  rw [f64Value, show unpackF64 0x7FF0000000000000 = .inf false by decide, Binary64.toRat]

theorem zero_value : f64Value 0 = some 0 := by
  rw [f64Value, show unpackF64 0 = .finite false 0 (-1074) by decide]
  simp only [Binary64.toRat]
  norm_num

/-- Largest finite number, zero, infinity and NaN (MultiplicationOverflowsAndSpecials, DivisionOverflowsAndSpecials). -/
theorem witness_specials :
    Reference.IsInf 0x7FF0000000000000 ∧ Reference.IsInf 0xFFF0000000000000 ∧ Reference.IsNaN 0x7FF0000000000001 ∧
    f64Value 0 = some 0 ∧ f64Value 0x3FF0000000000000 = some 1 ∧ (1 : ℚ) ≠ 0 ∧
    ¬ Reference.IsNaN 0x7FF0000000000000 :=
  ⟨.inl rfl, .inr rfl, ⟨by decide, by decide⟩, zero_value, one_value, one_ne_zero, by rintro ⟨-, h⟩; exact h rfl⟩

theorem two_pow_value : f64Value 0x7FE0000000000000 = some (((2 ^ 52 : Nat) : ℚ) * 2 ^ (971 : Nat)) := by
  rw [f64Value, show unpackF64 0x7FE0000000000000 = .finite false (2 ^ 52) (971 : Nat) by decide, Binary64.toRat,
    zpow_natCast, if_neg Bool.false_ne_true, one_mul]

/-- 2^1023 by itself: a product past the overflow bound. -/
theorem witness_overflow : ∃ a x, f64Value a = some x ∧ Reference.overflowBound ≤ |x * x| :=
  ⟨_, _, two_pow_value, by
    rw [abs_of_nonneg (by positivity), Reference.overflowBound, pow_succ (2 : ℚ) 970]
    have h : (1 : ℚ) ≤ 2 ^ 970 := one_le_pow₀ one_le_two
    generalize (2 : ℚ) ^ 970 = p at h ⊢
    norm_num
    nlinarith⟩

/-- IEEE 754: the largest finite number times the next number above 1 overflows; one half of the smallest
subnormal number is a tie and goes to zero. -/
theorem test_overflow_and_tie :
    mulRN 0x7FEFFFFFFFFFFFFF 0x3FF0000000000001 = 0x7FF0000000000000 ∧ mulRN 1 0x3FE0000000000000 = 0 := by
  decide +kernel

/-- Multiplication and division of finite operands, the divisor not zero. -/
theorem witness_rounding : ∃ a b x y, f64Value a = some x ∧ f64Value b = some y ∧ y ≠ 0 ∧
    |x * y| ≤ Reference.maxFinite ∧ |x / y| ≤ Reference.maxFinite :=
  ⟨_, _, 1, 1, one_value, one_value, by norm_num, by rw [one_mul, abs_one]; exact one_le_maxFinite,
    by rw [div_one, abs_one]; exact one_le_maxFinite⟩

theorem witness_LsbPatterns : ∃ v, f64Value vref = some v :=
  ⟨_, by rw [f64Value, show unpackF64 vref = .finite false 0x10624DD2F1A9FC (-51) by decide, Binary64.toRat]⟩

/-- Legal and illegal operands of SCALE and CONVERT, and the extreme counts. -/
theorem witness_scaling_operands :
    Reference.legalRes (12 : Byte).toNat ∧ Reference.legalGain (8 : Byte).toNat ∧ ¬ Reference.legalRes (15 : Byte).toNat ∧
    ¬ Reference.legalGain (0 : Byte).toNat ∧ (-(2 ^ 31) : Int) ≤ -(2 ^ 31) ∧ (2 ^ 31 : Int) ≤ 2 ^ 31 ∧
    (-(2 ^ 31) : Int) ≠ 0 := by
  unfold Reference.legalRes Reference.legalGain; decide

theorem witness_VoltageMagnitudeBounds : ∃ v hi lo, f64Value (scaleCore (-(2 ^ 31)) 12 1) = some v ∧
    f64Value 0x4140624DD2F1A9FC#64 = some hi ∧ f64Value 0x3EC0624DD2F1A9FC#64 = some lo :=
  ⟨_, _, _,
    by rw [f64Value, show unpackF64 (scaleCore (-(2 ^ 31)) 12 1) = .finite true 0x10624DD2F1A9FC (-31) by decide, Binary64.toRat],
    by rw [f64Value, show unpackF64 0x4140624DD2F1A9FC#64 = .finite false 0x10624DD2F1A9FC (-31) by decide, Binary64.toRat],
    by rw [f64Value, show unpackF64 0x3EC0624DD2F1A9FC#64 = .finite false 0x10624DD2F1A9FC (-71) by decide, Binary64.toRat]⟩

theorem witness_ConvertEqualsDecodeThenScale : legalResolutions.contains 14 ∧ legalGains.contains 4 := by decide

/-- The delay function at each resolution and outside the set. -/
theorem witness_ConversionDelays : convDelayMs 12 = 54 ∧ convDelayMs 14 = 66 ∧ convDelayMs 16 = 116 ∧
    convDelayMs 18 = 316 ∧ convDelayMs 13 = 550 ∧ ¬ Reference.legalRes (13 : Byte).toNat := by
  unfold Reference.legalRes; decide

/-- A legal request, and illegal ones: a channel, a resolution or a gain outside its set. -/
theorem witness_LegacyFallbackRequestsFailInDecoding : ∃ q q' : Request, ∃ block : State,
    block.params.legacyFallback = true ∧ 1 ≤ q.ch.toNat ∧ q.ch.toNat ≤ 4 ∧ ¬ Reference.legalRes q.res.toNat ∧
    Reference.legalRes q'.res.toNat ∧ ¬ Reference.legalGain q'.gain.toNat :=
  ⟨{ address := 0x68, ch := 1, res := 13, gain := 3 }, { address := 0x68, ch := 4, res := 18, gain := 3 },
    State.resetWith { legacyFallback := true }, by unfold Reference.legalRes Reference.legalGain; decide⟩

theorem witness_requests : ∃ q : Request, ∃ block : State, 1 ≤ q.ch.toNat ∧ q.ch.toNat ≤ 4 ∧
    Reference.legalRes q.res.toNat ∧ Reference.legalGain q.gain.toNat ∧ block.params.legacyFallback = false ∧
    (0 : Byte).toNat < 1 ∧ 4 < (5 : Byte).toNat ∧ ¬ Reference.legalRes (20 : Byte).toNat ∧
    ¬ Reference.legalGain (3 : Byte).toNat :=
  ⟨{ address := 0x68, ch := 4, res := 18, gain := 8 }, State.reset, by
    unfold Reference.legalRes Reference.legalGain; decide⟩

end Sys2Proof.Tests
end

section
/-! PROOFS. Which finite binary64 number is nearest to a rational number (00_scope.md R7, R13): the grid of the finite
numbers around it, and the settlement of O38. -/

namespace Sys2Proof.Machine

/-- A finite pattern's significand has at most 53 bits. -/
theorem unpackF64_sig_lt {z : F64} {neg : Bool} {m : Nat} {e : Int} (h : unpackF64 z = .finite neg m e) :
    m < 2 ^ 53 := by
  have hf := (z.extractLsb 51 0).isLt
  simp only [unpackF64] at h
  split_ifs at h
  · obtain ⟨-, rfl, -⟩ := Binary64.finite.inj h
    omega
  · obtain ⟨-, rfl, -⟩ := Binary64.finite.inj h
    omega

/-- A number stands for a finite pattern only. -/
theorem unpackF64_of_value {z : F64} {v : ℚ} (h : f64Value z = some v) :
    ∃ neg m e, unpackF64 z = .finite neg m e ∧ v = signQ neg * m * 2 ^ e := by
  cases hz : unpackF64 z with
  | finite neg m e =>
    rw [f64Value_finite hz] at h
    exact ⟨neg, m, e, rfl, (Option.some.inj h).symm⟩
  | inf neg => simp [f64Value, hz, Binary64.toRat] at h
  | nan => simp [f64Value, hz, Binary64.toRat] at h

theorem abs_signQ (neg : Bool) : |signQ neg| = 1 := by cases neg <;> simp [signQ]

theorem signQ_eq_intCast (neg : Bool) : signQ neg = ((if neg then -1 else 1 : Int) : ℚ) := by
  cases neg <;> simp [signQ]

/-- The finite numbers of magnitude `2 ^ 52 * 2 ^ u` and more lie on the grid of the multiples of `2 ^ u`. -/
theorem f64Value_small_or_on_grid {z : F64} {v : ℚ} (h : f64Value z = some v) (u : Int) :
    |v| < 2 ^ 52 * 2 ^ u ∨ ∃ k : Int, v = k * 2 ^ u := by
  obtain ⟨neg, m, e, hz, rfl⟩ := unpackF64_of_value h
  rcases lt_or_ge e u with he | he
  · left
    have hm : (m : ℚ) < 2 ^ 53 := by exact_mod_cast unpackF64_sig_lt hz
    calc |signQ neg * m * 2 ^ e| = m * 2 ^ e := by
          rw [abs_mul, abs_mul, abs_signQ, one_mul, abs_of_nonneg (by positivity), abs_of_pos (by positivity)]
      _ < 2 ^ 53 * 2 ^ e := by gcongr
      _ = 2 ^ 52 * 2 ^ (e + 1) := by rw [zpow_add_one₀ two_ne_zero]; ring
      _ ≤ 2 ^ 52 * 2 ^ u := by gcongr; exacts [one_le_two, he]
  · right
    obtain ⟨j, rfl⟩ := Int.le.dest he
    refine ⟨(if neg then -1 else 1) * m * 2 ^ j, ?_⟩
    rw [signQ_eq_intCast, zpow_add₀ two_ne_zero, zpow_natCast]
    push_cast
    ring

/-- A multiple of `p` less than half of `p` away from `x` is strictly the nearest multiple. -/
theorem multiple_nearer {x p : ℚ} {m k : Int} (hm : |m * p - x| < p / 2) (hk : k ≠ m) :
    |m * p - x| < |k * p - x| := by
  have hp : 0 < p := by linarith [abs_nonneg (m * p - x)]
  have hgap : p ≤ |k * p - m * p| := by
    rw [← sub_mul, abs_mul, abs_of_pos hp]
    have : (1 : ℚ) ≤ |(k : ℚ) - m| := by exact_mod_cast Int.one_le_abs (sub_ne_zero.2 hk)
    nlinarith
  have htri := abs_sub_le (k * p) x (m * p)
  rw [abs_sub_comm x] at htri
  linarith

/-- In the binade that begins at `2 ^ 52 * 2 ^ u`, a multiple of the last place `2 ^ u` less than half a last place away
is nearer than every other finite number: those on the grid are a last place away, those below the binade are farther
than its first number. -/
theorem half_ulp_nearer {x : ℚ} {m u : Int} (hlow : 2 ^ 52 * 2 ^ u ≤ x) (hm : |m * 2 ^ u - x| < 2 ^ u / 2)
    {z : F64} {v : ℚ} (hz : f64Value z = some v) (hv : v ≠ m * 2 ^ u) : |m * 2 ^ u - x| < |v - x| := by
  rcases f64Value_small_or_on_grid hz u with hsmall | ⟨k, rfl⟩
  · have hfirst : |m * 2 ^ u - x| ≤ |((2 ^ 52 : Int) : ℚ) * 2 ^ u - x| := by
      rcases eq_or_ne (2 ^ 52 : Int) m with h | h
      · rw [h]
      · exact (multiple_nearer hm h).le
    rw [Int.cast_pow, Int.cast_ofNat, abs_of_nonpos (sub_nonpos.2 hlow)] at hfirst
    have hlt := lt_of_abs_lt hsmall
    rw [abs_of_neg (a := v - x) (by linarith)]
    linarith
  · exact multiple_nearer hm fun h => hv (by rw [h])

/-- A number of the binade less than half a last place away is the nearest one, and there is no tie. -/
theorem nearestEven_of_half_ulp {x : ℚ} {y : F64} {m u : Int} (hy : f64Value y = some ((m : ℚ) * 2 ^ u))
    (hlow : 2 ^ 52 * 2 ^ u ≤ x) (hm : |m * 2 ^ u - x| < 2 ^ u / 2) : Reference.NearestEven x y := by
  refine ⟨(m : ℚ) * 2 ^ u, hy, fun z v hz => ?_, fun z v hz hv htie => ?_⟩
  · rcases eq_or_ne v (m * 2 ^ u) with rfl | hv
    · exact le_rfl
    · exact (half_ulp_nearer hlow hm hz hv).le
  · exact absurd htie (half_ulp_nearer hlow hm hz hv).ne'

/-- VREF as an integer number of its last places. -/
theorem vref_value : f64Value vref = some (((0x10624DD2F1A9FC : Int) : ℚ) * 2 ^ (-51 : Int)) := by
  rw [f64Value_finite vref_finite, signQ]
  norm_num

end Sys2Proof.Machine

namespace Sys2Proof

open Machine

/-- Settles O38: 2.048 lies in the binade from 2 to 4, whose last place is `2 ^ (-51)`, and VREF is less than half of it
away. -/
theorem vrefIsNearestTo2048Millivolts : Obligations.VrefIsNearestTo2048Millivolts := by
  refine ⟨rfl, ?_, nearestEven_of_half_ulp vref_value ?_ ?_⟩
  · rw [vref_value]
    norm_num
  · norm_num
  · norm_num [abs_lt]

end Sys2Proof
end

section
/-! PROOFS. The response of a step as a function of the word and the parameters (10_state.md R26): the settlement of
O19. -/

namespace Sys2Proof

open Machine

/-- Settles O19: each step responds with `wordResponse` of its parameters and the word, and the ports after a response
show nothing of the state before it. -/
theorem responseDependsOnWordAlone : Obligations.ResponseDependsOnWordAlone := by
  intro s₁ s₂ w hparams h₁ h₂
  refine ⟨_, _, step_ready h₁, step_ready h₂, ?_⟩
  rw [State.view_drive, State.view_drive, hparams]
  exact State.view_respond (wordResponse s₂.params w) s₁ s₂

end Sys2Proof
end

section
/-! PROOFS. The words that spell no command, and what a step makes of one (30_encoding.md R68): the settlement of O5. -/

namespace Sys2Proof

open Machine

/-- The op field of a word is its upper four bits, with nothing above them. -/
theorem bits_op (w : CommandWord) : Reference.bits w.toNat 63 60 = w.toNat / 2 ^ 60 := by
  have h := w.isLt
  simp only [Reference.bits]
  omega

theorem decode_eq_reservedOp_iff (w : CommandWord) :
    decode w = .error .reservedOp ↔ w.toNat / 2 ^ 60 = 0 ∨ 7 ≤ w.toNat / 2 ^ 60 := by
  rcases decode_cases w with ⟨hop, hd⟩ | h
  · simp only [hd, hop]
  · have hdefined : ¬ (w.toNat / 2 ^ 60 = 0 ∨ 7 ≤ w.toNat / 2 ^ 60) := by omega
    refine iff_of_false ?_ hdefined
    rcases h with ⟨-, hd⟩ | ⟨-, hd⟩ | ⟨-, hd⟩ | ⟨-, hd⟩ | ⟨-, hd⟩ | ⟨-, hd⟩ <;> rw [hd] <;> split <;> simp

namespace Machine

@[simp] theorem State.withPorts_view (v : PortView) (s : State) : (s.withPorts v).view = v := rfl

@[simp] theorem State.withPorts_params (v : PortView) (s : State) : (s.withPorts v).params = s.params := rfl

/-- A step on a word that spells no command raises IllegalCommand with the decoder's reason (R223). -/
theorem step_illegal {s : State} {w : CommandWord} {r : IllegalReason} (hs : s.ready w)
    (hw : decode w = .error r) : step s = .next (s.withPorts (faultView 2 (illegalInfo r))).drive := by
  rw [step_ready hs, wordResponse, hw, State.respond_error_withPorts, faultStatus, faultCode]

end Machine

/-- Settles O5: the decoder's op is the word divided by `2 ^ 60`, and its answer for a reserved op is the fault that the
step raises. -/
theorem reservedOpIsIllegal : Obligations.ReservedOpIsIllegal := by
  have hdecode (w : CommandWord) : decode w = .error .reservedOp ↔
      (Reference.bits w.toNat 63 60 = 0 ∨ 7 ≤ Reference.bits w.toNat 63 60) := by
    rw [bits_op]
    exact decode_eq_reservedOp_iff w
  refine ⟨hdecode, fun s w hs hop => ⟨_, step_illegal hs ((hdecode w).2 hop), ?_, ?_⟩⟩
  · rw [State.view_drive, State.withPorts_view, illegalInfo]
  · rw [State.drive_params, State.withPorts_params]

end Sys2Proof
end

section
/-! PROOFS. The pseudo-instruction DECODE.A (30_encoding.md R82): the settlement of O7. -/

namespace Sys2Proof

namespace Machine

theorem isResolution_iff_legalRes (res : Byte) : isResolution res = true ↔ Reference.legalRes res.toNat := by
  simp [isResolution, Reference.legalRes, or_assoc]

theorem numDataBytes_eq_payload (res : Byte) : numDataBytes res = Reference.payload res.toNat := by
  simp only [numDataBytes, Reference.payload, ← BitVec.toNat_inj]
  rfl

/-- DECODE of an illegal resolution raises ConfigurationError(RESOLUTION), whatever the payload length. -/
theorem decodeResponse_illegalResolution {res : Byte} (h : isResolution res = false) (nb : Byte) (raw : Raw) :
    decodeResponse nb res raw = .error (.configurationError .resolution) := by
  simp [decodeResponse, h]

/-- DECODE of a legal resolution with its payload length delivers what the decoder's core computes. -/
theorem decodeResponse_legal {nb res : Byte} (h : isResolution res = true) (hnb : nb.toNat = numDataBytes res)
    (raw : Raw) : decodeResponse nb res raw =
      .ok { int := some (BitVec.ofInt 32 (decodeCore raw (numDataBytes res) res).adj),
            snap := some (decodeCore raw (numDataBytes res) res).snap } := by
  simp [decodeResponse, h, hnb]

theorem toNat_ofNat_numDataBytes (res : Byte) : (BitVec.ofNat 8 (numDataBytes res)).toNat = numDataBytes res := by
  unfold numDataBytes
  split <;> rfl

end Machine

open Machine

theorem expandDecodeA_eq (raw : Raw) (res : Byte) :
    expandDecodeA raw res = .decode (BitVec.ofNat 8 (numDataBytes res)) res raw := by
  unfold expandDecodeA numDataBytes
  split <;> rfl

/-- Settles O7: the expansion carries `numDataBytes` of the resolution, which is the length DECODE asks for, and DECODE
checks the resolution before the length. -/
theorem decodeAExpands : Obligations.DecodeAExpands := by
  intro raw res s
  rw [expandDecodeA_eq, exec_eq_answer, answer_eq_next, responseOf]
  refine ⟨fun hlegal => ?_, fun hillegal => ?_⟩
  · have hres := (isResolution_iff_legalRes res).2 hlegal
    rw [decodeResponse_legal hres (toNat_ofNat_numDataBytes res), numDataBytes_eq_payload]
    exact ⟨rfl, _, rfl, rfl⟩
  · have hres : isResolution res = false := Bool.eq_false_iff.2 (mt (isResolution_iff_legalRes res).1 hillegal)
    have hne : res ≠ 18 := by rintro rfl; exact absurd hres (by decide)
    rw [decodeResponse_illegalResolution hres, State.respond_error_withPorts, numDataBytes, if_neg hne]
    exact ⟨rfl, rfl⟩

end Sys2Proof
end

section
/-! PROOFS. The configuration byte as the concatenation of its five fields (30_encoding.md R70, R73): the settlement of
O28. Each legal operand is told by a 2-bit code, so a legal triple is three codes, and the byte is those codes beside two
fixed bits. -/

namespace Sys2Proof.Machine

/-- The channel whose channelBits are `c` (R70). -/
def channelOfCode (c : BitVec 2) : Byte := c.setWidth 8 + 1

/-- The resolution whose rateCode is `c` (R72). -/
def resolutionOfCode (c : BitVec 2) : Byte := 12 + (c.setWidth 8 <<< 1)

/-- The gain whose gainCode is `c` (R71). -/
def gainOfCode (c : BitVec 2) : Byte := 1 <<< c.toNat

/-- The fields of the configuration byte, most significant first: start, channelBits, conversionMode, sampleRateCode,
gainCode (R70). -/
def configFields (cc rc gc : BitVec 2) : Byte := 1#1 ++ cc ++ 0#1 ++ rc ++ gc

theorem isChannel_channelOfCode (c : BitVec 2) : isChannel (channelOfCode c) = true := by revert c; decide

theorem rateCode_resolutionOfCode (c : BitVec 2) : rateCode (resolutionOfCode c) = some c := by revert c; decide

theorem gainCode_gainOfCode (c : BitVec 2) : gainCode (gainOfCode c) = some c := by revert c; decide

/-- The operands of the four codes, as a list and as a range. -/
theorem contains_codes_iff (f : BitVec 2 → Byte) (b : Byte) :
    [f 0, f 1, f 2, f 3].contains b = true ↔ ∃ c, b = f c := by
  have hcodes : ∀ c : BitVec 2, c = 0 ∨ c = 1 ∨ c = 2 ∨ c = 3 := by decide
  rw [List.contains_iff_mem]
  constructor
  · intro h
    simp only [List.mem_cons, List.not_mem_nil, or_false] at h
    rcases h with h | h | h | h <;> exact ⟨_, h⟩
  · rintro ⟨c, rfl⟩
    rcases hcodes c with rfl | rfl | rfl | rfl <;> simp

theorem legalChannels_iff_code (ch : Byte) : legalChannels.contains ch = true ↔ ∃ c, ch = channelOfCode c :=
  contains_codes_iff channelOfCode ch

theorem legalResolutions_iff_code (res : Byte) :
    legalResolutions.contains res = true ↔ ∃ c, res = resolutionOfCode c :=
  contains_codes_iff resolutionOfCode res

theorem legalGains_iff_code (gain : Byte) : legalGains.contains gain = true ↔ ∃ c, gain = gainOfCode c :=
  contains_codes_iff gainOfCode gain

/-- The shifted fields of `packCfg` do not overlap. -/
theorem packCfg_channelOfCode (order : CfgFieldOrder) (cc rc gc : BitVec 2) :
    packCfg order (channelOfCode cc) rc gc = configFields cc rc gc := by
  cases order
  revert cc rc gc; decide

/-- The codes stand at bits 6:5, 3:2 and 1:0 of the byte (R70). -/
theorem configFields_extract (cc rc gc : BitVec 2) : (configFields cc rc gc).extractLsb' 5 2 = cc ∧
    (configFields cc rc gc).extractLsb' 2 2 = rc ∧ (configFields cc rc gc).extractLsb' 0 2 = gc := by
  revert cc rc gc; decide

theorem configFields_inj {cc rc gc cc' rc' gc' : BitVec 2} (h : configFields cc rc gc = configFields cc' rc' gc') :
    cc = cc' ∧ rc = rc' ∧ gc = gc' := by
  obtain ⟨hc, hr, hg⟩ := configFields_extract cc rc gc
  obtain ⟨hc', hr', hg'⟩ := configFields_extract cc' rc' gc'
  rw [h] at hc hr hg
  exact ⟨hc.symm.trans hc', hr.symm.trans hr', hg.symm.trans hg'⟩

/-- A byte with bit 7 set and bit 4 clear is the concatenation of its fields. -/
theorem configFields_of_bits (b : Byte) (h7 : 0x80 ≤ b.toNat) (h4 : b.getLsbD 4 = false) :
    configFields (b.extractLsb' 5 2) (b.extractLsb' 2 2) (b.extractLsb' 0 2) = b := by
  revert b; decide

/-- ENCFG on operands that have codes completes with those codes, under both values of LEGACY_FALLBACK (R103). -/
theorem encfgResponse_of_codes (p : Params) {ch res gain : Byte} {rc gc : BitVec 2} (hc : isChannel ch = true)
    (hr : rateCode res = some rc) (hg : gainCode gain = some gc) : encfgResponse p ch res gain =
      .ok { byte := some (packCfg p.cfgFieldOrder ch rc gc), int := some (BitVec.ofNat 32 (numDataBytes res)) } := by
  simp [encfgResponse, codeOrFallback, hc, hr, hg]

/-- ENCFG on the legal triple of three codes delivers the byte of these codes. -/
theorem exec_encfg_codes (cc rc gc : BitVec 2) (s : State) :
    exec (.encfg (channelOfCode cc) (resolutionOfCode rc) (gainOfCode gc)) s =
      .next (s.withPorts (okView (some (configFields cc rc gc))
        (some (BitVec.ofNat 32 (numDataBytes (resolutionOfCode rc)))) none none)) := by
  rw [exec_eq_answer, answer_eq_next, responseOf, encfgResponse_of_codes s.params (isChannel_channelOfCode cc)
    (rateCode_resolutionOfCode rc) (gainCode_gainOfCode gc), packCfg_channelOfCode, State.respond_ok_withPorts]

/-- The byte of three codes is the or of R73, with bit 7 set and bit 4 clear. -/
theorem configFields_eq_or (cc rc gc : BitVec 2) :
    configFields cc rc gc = 0x80 ||| ((channelOfCode cc - 1) <<< 5) ||| (0 <<< 4)
        ||| (((resolutionOfCode rc - 12) >>> 1) <<< 2)
        ||| (if gainOfCode gc = 1 then 0 else if gainOfCode gc = 2 then 1 else if gainOfCode gc = 4 then 2 else 3) ∧
      (configFields cc rc gc).getLsbD 7 = true ∧ (configFields cc rc gc).getLsbD 4 = false := by
  revert cc rc gc; decide

end Sys2Proof.Machine

namespace Sys2Proof

open Machine

/-- Settles O28: legal triples, triples of codes and bytes with bit 7 set and bit 4 clear correspond one to one. -/
theorem configurationBytesOfLegalTriples : Obligations.ConfigurationBytesOfLegalTriples := by
  constructor
  · intro ch res gain s hch hres hgain
    obtain ⟨cc, rfl⟩ := (legalChannels_iff_code ch).1 hch
    obtain ⟨rc, rfl⟩ := (legalResolutions_iff_code res).1 hres
    obtain ⟨gc, rfl⟩ := (legalGains_iff_code gain).1 hgain
    exact ⟨_, _, exec_encfg_codes cc rc gc s, rfl, configFields_eq_or cc rc gc⟩
  · intro b s h7 _ h4
    have hb := configFields_of_bits b h7 h4
    refine ⟨_, _, _, _, (legalChannels_iff_code _).2 ⟨_, rfl⟩, (legalResolutions_iff_code _).2 ⟨_, rfl⟩,
      (legalGains_iff_code _).2 ⟨_, rfl⟩, exec_encfg_codes _ _ _ s, congrArg some hb, ?_⟩
    intro ch' res' gain' t' hch hres hgain ht hbyte
    obtain ⟨cc, rfl⟩ := (legalChannels_iff_code ch').1 hch
    obtain ⟨rc, rfl⟩ := (legalResolutions_iff_code res').1 hres
    obtain ⟨gc, rfl⟩ := (legalGains_iff_code gain').1 hgain
    rw [exec_encfg_codes] at ht
    cases ht
    obtain ⟨rfl, rfl, rfl⟩ := configFields_inj ((Option.some.inj hbyte).trans hb.symm)
    exact ⟨rfl, rfl, rfl⟩

end Sys2Proof
end

section
/-! PROOFS. Where the config echo goes (30_encoding.md R76): into `w[3]`, from there into `d[3]`, and nowhere else; the
settlement of O36. -/

namespace Sys2Proof

/-- The raw response with this byte at the config echo's place: `raw[3]` at 18 bits, `raw[2]` otherwise (R76). -/
def Raw.withEcho (raw : Raw) (res e : Byte) : Raw := if res = 18 then { raw with b3 := e } else { raw with b2 := e }

theorem Raw.withEcho_of_ne {res : Byte} (h : res ≠ 18) (b0 b1 b2 b3 e : Byte) :
    Raw.withEcho ⟨b0, b1, b2, b3⟩ res e = ⟨b0, b1, e, b3⟩ := if_neg h

namespace Machine

/-- Three parts of the snapshot: the count's bytes `d[0..2]`, the byte `d[3]`, and `d[4..5]` (R145). -/
theorem snapshot_eq_parts (w : Working) (adj : Int) (res : Byte) :
    snapshot w adj res = (w.w0 ++ w.w1 ++ w.w2) ++ w.w3 ++ (lowbyte adj ++ res) := BitVec.append_assoc

theorem snapshot_high (w : Working) (adj : Int) (res : Byte) :
    (snapshot w adj res).extractLsb 47 24 = w.w0 ++ w.w1 ++ w.w2 := by
  rw [snapshot_eq_parts]
  exact (BitVec.extractLsb'_append_eq_of_le (by decide)).trans BitVec.extractLsb'_append_eq_left

theorem snapshot_echo (w : Working) (adj : Int) (res : Byte) :
    (snapshot w adj res).extractLsb 23 16 = w.w3 := by
  rw [snapshot_eq_parts]
  exact (BitVec.extractLsb'_append_eq_of_le (by decide)).trans BitVec.extractLsb'_append_eq_right

theorem snapshot_low (w : Working) (adj : Int) (res : Byte) :
    (snapshot w adj res).extractLsb 15 0 = lowbyte adj ++ res := by
  rw [snapshot_eq_parts]
  exact BitVec.extractLsb'_append_eq_right

/-- The echo is `w[3]` of the working buffer and no other byte of it. -/
theorem workingBuffer_withEcho (raw : Raw) (res e : Byte) :
    workingBuffer (numDataBytes res) res (raw.withEcho res e) =
      { workingBuffer (numDataBytes res) res raw with w3 := e } := by
  unfold numDataBytes Raw.withEcho
  split <;> rfl

theorem withEcho_b0 (raw : Raw) (res e : Byte) : (raw.withEcho res e).b0 = raw.b0 := by
  unfold Raw.withEcho
  split <;> rfl

/-- The count does not see the echo, and the snapshot has it as `w[3]` alone. -/
theorem decodeCore_withEcho (raw : Raw) (res e : Byte) :
    decodeCore (raw.withEcho res e) (numDataBytes res) res =
      { adj := (decodeCore raw (numDataBytes res) res).adj
        snap := snapshot { workingBuffer (numDataBytes res) res raw with w3 := e }
          (decodeCore raw (numDataBytes res) res).adj res } := by
  simp only [decodeCore, workingBuffer_withEcho, withEcho_b0, assembledCount]

/-- A fault leaves no snapshot to differ in. -/
theorem respond_error_sameButEcho (f : CommandFault) (s : State) (e e' : Byte) :
    Reference.SameButEcho (s.respond (.error f)) (s.respond (.error f)) e e' := by
  simp [Reference.SameButEcho]

/-- Two completions whose snapshots are of working buffers that differ in `w[3]` alone. -/
theorem respond_ok_sameButEcho (w : Working) (adj : Int) (res e e' : Byte) (byte : Option Byte) (int : Option Count)
    (f64 : Option F64) (s : State) : Reference.SameButEcho
      (s.respond (.ok { byte := byte, int := int, snap := some (snapshot { w with w3 := e } adj res), f64 := f64 }))
      (s.respond (.ok { byte := byte, int := int, snap := some (snapshot { w with w3 := e' } adj res), f64 := f64 }))
      e e' := by
  simp [Reference.SameButEcho, snapshot_echo, snapshot_high, snapshot_low]

theorem decodeResponse_sameButEcho (nb res : Byte) (raw : Raw) (e e' : Byte) (s : State) :
    Reference.SameButEcho (s.respond (decodeResponse nb res (raw.withEcho res e)))
      (s.respond (decodeResponse nb res (raw.withEcho res e'))) e e' := by
  unfold decodeResponse
  split
  · split
    next hnb =>
      simp only [hnb, decodeCore_withEcho]
      exact respond_ok_sameButEcho ..
    next => exact respond_error_sameButEcho ..
  · exact respond_error_sameButEcho ..

theorem convertResponse_sameButEcho (gain res : Byte) (raw : Raw) (e e' : Byte) (s : State) :
    Reference.SameButEcho (s.respond (convertResponse gain res (raw.withEcho res e)))
      (s.respond (convertResponse gain res (raw.withEcho res e'))) e e' := by
  unfold convertResponse
  split
  · split
    · simp only [decodeCore_withEcho]
      exact respond_ok_sameButEcho ..
    · exact respond_error_sameButEcho ..
  · exact respond_error_sameButEcho ..

theorem exec_next {i : Instr} {s t : State} (h : exec i s = .next t) : t = s.respond (responseOf s.params i) := by
  rw [exec_eq_answer, answer_eq_next] at h
  exact (Host.Outcome.next.inj h).symm

end Machine

open Machine

/-- Settles O36: the two raw responses are one with two echoes, and DECODE and CONVERT answer these with responses that
differ in `d[3]` alone. -/
theorem echoReachesOnlyTheSnapshot : Obligations.EchoReachesOnlyTheSnapshot := by
  intro nb res gain e e' b0 b1 b2 s t t'
  refine ⟨fun h h' => ?_, fun hres h h' => ?_, fun h h' => ?_, fun hres h h' => ?_⟩ <;>
    rw [exec_next h, exec_next h']
  · exact decodeResponse_sameButEcho nb 18 ⟨b0, b1, b2, 0⟩ e e' s
  · rw [← Raw.withEcho_of_ne hres b0 b1 0 b2 e, ← Raw.withEcho_of_ne hres b0 b1 0 b2 e']
    exact decodeResponse_sameButEcho nb res _ e e' s
  · exact convertResponse_sameButEcho gain 18 ⟨b0, b1, b2, 0⟩ e e' s
  · rw [← Raw.withEcho_of_ne hres b0 b1 0 b2 e, ← Raw.withEcho_of_ne hres b0 b1 0 b2 e']
    exact convertResponse_sameButEcho gain res _ e e' s

end Sys2Proof
end

section
/-! PROOFS. What the ports show after each command's response, the field helpers among them (10_state.md R24,
40_config_encoder.md R110 to R112): the settlement of O31. -/

namespace Sys2Proof

namespace Machine

/-- The six ports after a response (R24). -/
def Response.view : Response → PortView
  | .ok r => okView r.byte r.int r.snap r.f64
  | .error f => faultView (faultStatus f) (faultCode f)

theorem State.respond_withPorts (r : Response) (s : State) : s.respond r = s.withPorts (Response.view r) := by
  cases r <;> rfl

theorem exec_withPorts (i : Instr) (s : State) :
    exec i s = .next (s.withPorts (Response.view (responseOf s.params i))) := by
  rw [exec_eq_answer, answer_eq_next, State.respond_withPorts]

/-- GAINF on a 2-bit code delivers the gain of that code (R110). -/
theorem gainfResponse_code (c : BitVec 2) : gainfResponse (c.setWidth 8) = .ok { byte := some (gainOfCode c) } := by
  revert c; decide

/-- RESB on a 2-bit code delivers the resolution of that code (R111). -/
theorem resbResponse_code (c : BitVec 2) :
    resbResponse (c.setWidth 8) = .ok { byte := some (resolutionOfCode c) } := by
  revert c; decide

theorem exec_gainf_code (c : BitVec 2) (s : State) :
    ∃ t, exec (.gainf (c.setWidth 8)) s = .next t ∧ t.outByte = some (gainOfCode c) :=
  ⟨_, exec_withPorts _ s, by rw [responseOf, gainfResponse_code]; rfl⟩

theorem exec_resb_code (c : BitVec 2) (s : State) :
    ∃ t, exec (.resb (c.setWidth 8)) s = .next t ∧ t.outByte = some (resolutionOfCode c) :=
  ⟨_, exec_withPorts _ s, by rw [responseOf, resbResponse_code]; rfl⟩

end Machine

open Machine

/-- Settles O31: `gainOfCode` and `resolutionOfCode`, which range over the legal gains and resolutions, are what GAINF
and RESB deliver, and `gainCode` and `rateCode` are their inverses. -/
theorem helpersInvertTheCodes : Obligations.HelpersInvertTheCodes := by
  refine ⟨fun g s hg => ?_, fun r s hr => ?_, fun c s => ?_, fun c s => ?_⟩
  · obtain ⟨c, rfl⟩ := (legalGains_iff_code g).1 hg
    obtain ⟨t, ht, hbyte⟩ := exec_gainf_code c s
    exact ⟨c, t, gainCode_gainOfCode c, ht, hbyte⟩
  · obtain ⟨c, rfl⟩ := (legalResolutions_iff_code r).1 hr
    obtain ⟨t, ht, hbyte⟩ := exec_resb_code c s
    exact ⟨c, t, rateCode_resolutionOfCode c, ht, hbyte⟩
  · obtain ⟨t, ht, hbyte⟩ := exec_gainf_code c s
    exact ⟨t, _, ht, hbyte, (legalGains_iff_code _).2 ⟨c, rfl⟩, gainCode_gainOfCode c⟩
  · obtain ⟨t, ht, hbyte⟩ := exec_resb_code c s
    exact ⟨t, _, ht, hbyte, (legalResolutions_iff_code _).2 ⟨c, rfl⟩, rateCode_resolutionOfCode c⟩

end Sys2Proof
end

section
/-! PROOFS. Reading ENCFG's operands back from the configuration byte, and what the legacy fallback forgets
(40_config_encoder.md R103, R104): the settlement of O27. -/

namespace Sys2Proof

namespace Machine

theorem isGain_iff_legalGain (gain : Byte) : isGain gain = true ↔ Reference.legalGain gain.toNat := by
  simp [isGain, Reference.legalGain, or_assoc]

/-- The operands that `rateCode` has no code for are the illegal ones (R72). -/
theorem rateCode_eq_none_iff (res : Byte) : rateCode res = none ↔ ¬ Reference.legalRes res.toNat := by
  rw [← isResolution_iff_legalRes, isResolution_iff_legal, ← rateCode_isSome, Option.not_isSome_iff_eq_none]

/-- The operands that `gainCode` has no code for are the illegal ones (R71). -/
theorem gainCode_eq_none_iff (gain : Byte) : gainCode gain = none ↔ ¬ Reference.legalGain gain.toNat := by
  rw [← isGain_iff_legalGain, isGain_iff_legal, ← gainCode_isSome, Option.not_isSome_iff_eq_none]

/-- What a completed ENCFG says: a legal channel, and a code for each of the other two operands (R103). -/
theorem encfgResponse_ok_cases {p : Params} {ch res gain : Byte} {r : Results}
    (h : encfgResponse p ch res gain = .ok r) : isChannel ch = true ∧
      ∃ rc gc, codeOrFallback p (rateCode res) = some rc ∧ codeOrFallback p (gainCode gain) = some gc ∧
        r = { byte := some (packCfg p.cfgFieldOrder ch rc gc), int := some (BitVec.ofNat 32 (numDataBytes res)) } := by
  unfold encfgResponse at h
  split at h
  next hch =>
    split at h
    · cases h
    next rc hrc =>
      split at h
      · cases h
      next gc hgc => exact ⟨hch, rc, gc, hrc, hgc, (Except.ok.inj h).symm⟩
  next => cases h

/-- Without the legacy fallback ENCFG sends an operand's own code or none. -/
theorem codeOrFallback_of_not_legacy {p : Params} (hp : p.legacyFallback = false) (code : Option (BitVec 2)) :
    codeOrFallback p code = code := by
  cases code <;> simp [codeOrFallback, hp]

/-- Without the legacy fallback ENCFG completes only on a legal triple, so on three codes (R103). -/
theorem encfgResponse_ok_codes {p : Params} {ch res gain : Byte} {r : Results} (hp : p.legacyFallback = false)
    (h : encfgResponse p ch res gain = .ok r) :
    ∃ cc rc gc, ch = channelOfCode cc ∧ res = resolutionOfCode rc ∧ gain = gainOfCode gc := by
  obtain ⟨hch, rc, gc, hrc, hgc, -⟩ := encfgResponse_ok_cases h
  rw [codeOrFallback_of_not_legacy hp] at hrc hgc
  obtain ⟨cc, rfl⟩ := (legalChannels_iff_code ch).1 (isChannel_iff_legal ch ▸ hch)
  obtain ⟨rc, rfl⟩ := (legalResolutions_iff_code res).1 (by rw [← rateCode_isSome, hrc]; rfl)
  obtain ⟨gc, rfl⟩ := (legalGains_iff_code gain).1 (by rw [← gainCode_isSome, hgc]; rfl)
  exact ⟨cc, rc, gc, rfl, rfl, rfl⟩

/-- Without the legacy fallback a byte that ENCFG delivers is that of the three codes of its operands. -/
theorem exec_encfg_byte {ch res gain b : Byte} {s t : State} (hp : s.params.legacyFallback = false)
    (ht : exec (.encfg ch res gain) s = .next t) (hb : t.outByte = some b) :
    ∃ cc rc gc, ch = channelOfCode cc ∧ res = resolutionOfCode rc ∧ gain = gainOfCode gc ∧
      b = configFields cc rc gc := by
  cases hr : encfgResponse s.params ch res gain with
  | error f =>
    rw [exec_next ht, responseOf, hr] at hb
    simp at hb
  | ok r =>
    obtain ⟨cc, rc, gc, rfl, rfl, rfl⟩ := encfgResponse_ok_codes hp hr
    rw [exec_encfg_codes] at ht
    cases ht
    exact ⟨cc, rc, gc, rfl, rfl, rfl, (Option.some.inj hb).symm⟩

theorem toNat_channelOfCode (c : BitVec 2) : (channelOfCode c).toNat = c.toNat + 1 := by revert c; decide

/-- With the legacy fallback an out-of-set resolution is answered as resolution 12 (R103). -/
theorem encfgResponse_fallback_resolution {p : Params} {res : Byte} (hp : p.legacyFallback = true)
    (hres : ¬ Reference.legalRes res.toNat) (ch gain : Byte) :
    encfgResponse p ch res gain = encfgResponse p ch 12 gain := by
  have hcode : codeOrFallback p (rateCode res) = codeOrFallback p (rateCode 12) := by
    rw [(rateCode_eq_none_iff res).2 hres, codeOrFallback, hp]; rfl
  have hbytes : numDataBytes res = numDataBytes 12 := by
    rw [numDataBytes_eq_payload, numDataBytes_eq_payload, Reference.payload,
      if_neg (hres ∘ .inr ∘ .inr ∘ .inr)]; rfl
  rw [encfgResponse, encfgResponse, hcode, hbytes]

/-- With the legacy fallback an out-of-set gain is answered as gain 1 (R103). -/
theorem encfgResponse_fallback_gain {p : Params} {gain : Byte} (hp : p.legacyFallback = true)
    (hgain : ¬ Reference.legalGain gain.toNat) (ch res : Byte) :
    encfgResponse p ch res gain = encfgResponse p ch res 1 := by
  have hcode : codeOrFallback p (gainCode gain) = codeOrFallback p (gainCode 1) := by
    rw [(gainCode_eq_none_iff gain).2 hgain, codeOrFallback, hp]; rfl
  rw [encfgResponse, encfgResponse, hcode]

end Machine

open Machine

/-- Settles O27: a byte that ENCFG delivers without the legacy fallback is `configFields` of its operands' codes, which
stand apart in it; with the fallback an out-of-set operand gets the response of the operand with code 0. -/
theorem encfgFieldsReadBack : Obligations.EncfgFieldsReadBack := by
  refine ⟨?_, ?_, ?_, fun c s => ?_⟩
  · intro ch res gain s t b hp ht hb
    obtain ⟨cc, rc, gc, rfl, rfl, rfl, rfl⟩ := exec_encfg_byte hp ht hb
    obtain ⟨-, h7, h4⟩ := configFields_eq_or cc rc gc
    obtain ⟨hc, hr, hg⟩ := configFields_extract cc rc gc
    refine ⟨h7, h4, ?_, ?_, ?_⟩
    · rw [toNat_channelOfCode]
      exact congrArg (fun c => c.toNat + 1) hc
    · rw [BitVec.extractLsb, hr]
      exact exec_resb_code rc s
    · rw [BitVec.extractLsb, hg]
      exact exec_gainf_code gc s
  · intro ch res gain ch' res' gain' s t t' b hp ht ht' hb hb'
    obtain ⟨cc, rc, gc, rfl, rfl, rfl, rfl⟩ := exec_encfg_byte hp ht hb
    obtain ⟨cc', rc', gc', rfl, rfl, rfl, hbytes⟩ := exec_encfg_byte hp ht' hb'
    obtain ⟨rfl, rfl, rfl⟩ := configFields_inj hbytes
    exact ⟨rfl, rfl, rfl⟩
  · intro ch res gain s t t' hp
    refine ⟨fun hres ht ht' => ?_, fun hgain ht ht' => ?_⟩
    · rw [exec_next ht, exec_next ht', responseOf, responseOf, encfgResponse_fallback_resolution hp hres]
    · rw [exec_next ht, exec_next ht', responseOf, responseOf, encfgResponse_fallback_gain hp hgain]
  · have hlegal : Reference.legalGain (gainOfCode c).toNat := by
      rw [← isGain_iff_legalGain, isGain_iff_legal]
      exact (legalGains_iff_code _).2 ⟨c, rfl⟩
    have hgain : BitVec.ofNat 8 (gainOfCode c).toNat = gainOfCode c := BitVec.ofNat_toNat .. ▸ BitVec.setWidth_eq _
    obtain ⟨-, -, hcode⟩ := configFields_extract 0 0 c
    exact ⟨_, _, _, hlegal, hgain ▸ exec_encfg_codes 0 0 c s, rfl, hcode⟩

end Sys2Proof
end

section
/-! PROOFS. The decoder's count and snapshot as the arithmetic of the reference (41_response_decoder.md R141 to R145),
for every resolution byte, legal or not. -/

namespace Sys2Proof.Machine

/-- Appending a byte below is multiplying by 256 and adding. -/
theorem toNat_append_byte {n : Nat} (x : BitVec n) (b : Byte) : (x ++ b).toNat = x.toNat * 256 + b.toNat := by
  rw [BitVec.toNat_append, ← Nat.shiftLeft_add_eq_or_of_lt b.isLt, Nat.shiftLeft_eq]

/-- The fields of the assembled count do not overlap (R143). -/
theorem assembledCount_eq (w : Working) : assembledCount w = (w.w0 ++ w.w1 ++ w.w2).toNat := by
  simp only [assembledCount, BitVec.toNat_append, Nat.shiftLeft_or_distrib, ← Nat.shiftLeft_add]

/-- The masks on the middle byte are remainders (R142). -/
theorem toNat_maskMiddle (res b : Byte) : (maskMiddle res b).toNat =
    if res.toNat = 14 then b.toNat % 32 else if res.toNat = 12 then b.toNat % 8 else b.toNat := by
  have h14 : res = 14 ↔ res.toNat = 14 := BitVec.toNat_inj.symm
  have h12 : res = 12 ↔ res.toNat = 12 := BitVec.toNat_inj.symm
  simp only [maskMiddle, h14, h12]
  split
  · exact (BitVec.toNat_and ..).trans (Nat.and_two_pow_sub_one_eq_mod b.toNat 5)
  · split
    · exact (BitVec.toNat_and ..).trans (Nat.and_two_pow_sub_one_eq_mod b.toNat 3)
    · rfl

/-- The count of the working buffer, with a 3-byte payload and with a 2-byte one (R141 to R143). -/
theorem assembledCount_workingBuffer (res : Byte) (raw : Raw) :
    assembledCount (workingBuffer (numDataBytes res) res raw) =
      Reference.count res.toNat raw.b0.toNat raw.b1.toNat raw.b2.toNat := by
  have h18 : res = 18 ↔ res.toNat = 18 := BitVec.toNat_inj.symm
  have hbit : (raw.b0 &&& 0x01).toNat = raw.b0.toNat % 2 :=
    (BitVec.toNat_and ..).trans (Nat.and_two_pow_sub_one_eq_mod raw.b0.toNat 1)
  simp only [assembledCount_eq, toNat_append_byte, workingBuffer, numDataBytes, Reference.count, h18]
  split
  · simp only [hbit, reduceIte]
    omega
  · simp [toNat_maskMiddle]

theorem workingBuffer_echo (res : Byte) (raw : Raw) :
    (workingBuffer (numDataBytes res) res raw).w3.toNat = Reference.echo res.toNat raw.b2.toNat raw.b3.toNat := by
  have hres : res = 18 ↔ res.toNat = 18 := BitVec.toNat_inj.symm
  simp only [numDataBytes, Reference.echo, hres]
  split <;> rfl

theorem decodeCore_adj (res : Byte) (raw : Raw) : (decodeCore raw (numDataBytes res) res).adj =
    Reference.adjusted res.toNat raw.b0.toNat raw.b1.toNat raw.b2.toNat := by
  have hsign : s8 raw.b0 < 0 ↔ 128 ≤ raw.b0.toNat := by
    rw [s8, BitVec.toInt_eq_toNat_cond]; omega
  simp only [decodeCore, adjustedCount, assembledCount_workingBuffer, Reference.adjusted, hsign]

theorem decodeCore_snap (res : Byte) (raw : Raw) :
    (decodeCore raw (numDataBytes res) res).snap = Reference.snapPort res.toNat raw := by
  have hadj := decodeCore_adj res raw
  apply BitVec.eq_of_toNat_eq
  rw [Reference.snapPort, Reference.snap, ← assembledCount_workingBuffer, ← workingBuffer_echo, ← hadj,
    assembledCount_eq]
  simp only [decodeCore, snapshot, toNat_append_byte, lowbyte, BitVec.toNat_ofInt, BitVec.toNat_ofNat]
  omega

end Sys2Proof.Machine
end

section
/-! PROOFS. The response to each word against the reference's writing of the pseudocode, one lemma for each op
(40_config_encoder.md R103, R110, R111, 41_response_decoder.md R140, 60_exceptions.md R224): the settlement of O15. -/

namespace Sys2Proof

open Machine

/-- The reference's fields are the decoder's. -/
theorem bits_eq_field (w : CommandWord) {hi lo : Nat} (h : lo ≤ hi) :
    Reference.bits w.toNat hi lo = (field w hi lo).toNat := by
  rw [field_toNat, Reference.bits, Nat.sub_add_comm h]

namespace Machine

theorem isChannel_iff_range (ch : Byte) : isChannel ch = true ↔ ¬ (ch.toNat < 1 ∨ 4 < ch.toNat) := by
  simp only [isChannel, Bool.and_eq_true, decide_eq_true_eq]
  omega

/-- A count's two's complement reading, as the reference computes it (R8). -/
theorem toInt_count (c : Count) :
    c.toInt = if c.toNat < 2 ^ 31 then (c.toNat : Int) else (c.toNat : Int) - 2 ^ 32 := by
  rw [BitVec.toInt_eq_toNat_cond]
  split_ifs <;> omega

theorem rateCode_of_legal {res : Byte} (h : Reference.legalRes res.toNat) :
    rateCode res = some (BitVec.ofNat 2 (Reference.rate res.toNat)) := by
  rcases isResolution_cases ((isResolution_iff_legalRes res).2 h) with rfl | rfl | rfl | rfl <;> decide

theorem gainCode_of_legal {gain : Byte} (h : Reference.legalGain gain.toNat) :
    gainCode gain = some (BitVec.ofNat 2 (Reference.gainLog gain.toNat)) := by
  rcases isGain_cases ((isGain_iff_legalGain gain).2 h) with rfl | rfl | rfl | rfl <;> decide

/-- The code ENCFG sends for an operand that is legal, or for any operand with the legacy fallback (R103). -/
theorem codeOrFallback_rateCode {p : Params} {res : Byte}
    (h : Reference.legalRes res.toNat ∨ p.legacyFallback = true) :
    codeOrFallback p (rateCode res) = some (BitVec.ofNat 2 (Reference.rate res.toNat)) := by
  by_cases hres : Reference.legalRes res.toNat
  · rw [rateCode_of_legal hres, codeOrFallback]
  · rw [(rateCode_eq_none_iff res).2 hres, codeOrFallback, h.resolve_left hres, Reference.rate,
      if_neg (show ¬ (_ ∨ _) from hres)]; rfl

theorem codeOrFallback_gainCode {p : Params} {gain : Byte}
    (h : Reference.legalGain gain.toNat ∨ p.legacyFallback = true) :
    codeOrFallback p (gainCode gain) = some (BitVec.ofNat 2 (Reference.gainLog gain.toNat)) := by
  by_cases hgain : Reference.legalGain gain.toNat
  · rw [gainCode_of_legal hgain, codeOrFallback]
  · rw [(gainCode_eq_none_iff gain).2 hgain, codeOrFallback, h.resolve_left hgain, Reference.gainLog,
      if_neg (show ¬ (_ ∨ _) from hgain)]; rfl

theorem rate_lt (res : Nat) : Reference.rate res < 4 := by
  unfold Reference.rate
  split <;> omega

theorem gainLog_lt (gain : Nat) : Reference.gainLog gain < 4 := by
  unfold Reference.gainLog
  split
  next h => rcases h with rfl | rfl | rfl | rfl <;> decide
  next => decide

/-- The byte of three codes as a sum of its fields at their places (R70). -/
theorem configFields_eq_sum (cc rc gc : BitVec 2) :
    configFields cc rc gc = BitVec.ofNat 8 (128 + cc.toNat * 32 + rc.toNat * 4 + gc.toNat) := by
  revert cc rc gc; decide

theorem packCfg_eq_configByte (order : CfgFieldOrder) {ch : Byte} (hch : isChannel ch = true) (res gain : Nat) :
    packCfg order ch (BitVec.ofNat 2 (Reference.rate res)) (BitVec.ofNat 2 (Reference.gainLog gain)) =
      BitVec.ofNat 8 (Reference.configByte ch.toNat res gain) := by
  obtain ⟨cc, rfl⟩ := (legalChannels_iff_code ch).1 (isChannel_iff_legal ch ▸ hch)
  rw [packCfg_channelOfCode, configFields_eq_sum, Reference.configByte, toNat_channelOfCode, BitVec.toNat_ofNat,
    BitVec.toNat_ofNat, Nat.mod_eq_of_lt (rate_lt res), Nat.mod_eq_of_lt (gainLog_lt gain), Nat.add_sub_cancel]

/-! The checks of ENCFG in their order, and its completion (R103, R224). -/

theorem encfgResponse_illegalChannel {ch : Byte} (h : isChannel ch = false) (p : Params) (res gain : Byte) :
    encfgResponse p ch res gain = .error (.configurationError .channel) := by
  simp [encfgResponse, h]

theorem encfgResponse_illegalResolution {p : Params} {ch res : Byte} (hp : p.legacyFallback = false)
    (hch : isChannel ch = true) (hres : ¬ Reference.legalRes res.toNat) (gain : Byte) :
    encfgResponse p ch res gain = .error (.configurationError .resolution) := by
  simp [encfgResponse, hch, codeOrFallback_of_not_legacy hp, (rateCode_eq_none_iff res).2 hres]

theorem encfgResponse_illegalGain {p : Params} {ch res gain : Byte} (hp : p.legacyFallback = false)
    (hch : isChannel ch = true) (hres : Reference.legalRes res.toNat) (hgain : ¬ Reference.legalGain gain.toNat) :
    encfgResponse p ch res gain = .error (.configurationError .gain) := by
  simp [encfgResponse, hch, codeOrFallback_of_not_legacy hp, rateCode_of_legal hres,
    (gainCode_eq_none_iff gain).2 hgain]

theorem encfgResponse_completes {p : Params} {ch res gain : Byte} (hch : isChannel ch = true)
    (hres : Reference.legalRes res.toNat ∨ p.legacyFallback = true)
    (hgain : Reference.legalGain gain.toNat ∨ p.legacyFallback = true) : encfgResponse p ch res gain =
      .ok { byte := some (BitVec.ofNat 8 (Reference.configByte ch.toNat res.toNat gain.toNat)),
            int := some (BitVec.ofNat 32 (Reference.payload res.toNat)) } := by
  simp [encfgResponse, hch, codeOrFallback_rateCode hres, codeOrFallback_gainCode hgain, packCfg_eq_configByte,
    numDataBytes_eq_payload]

end Machine

/-! Each op selects its arm of the reference, whose checks are the command's in the same order. -/

theorem view_responseOf_encfg (p : Params) {w : CommandWord} (hop : Reference.bits w.toNat 63 60 = 1)
    (hrsv : Reference.reserved w.toNat = 0) :
    Response.view (responseOf p (.encfg (field w 23 16) (field w 15 8) (field w 7 0))) =
      Reference.view p.legacyFallback w.toNat := by
  simp only [Reference.view, hop, hrsv, bits_eq_field, reduceIte, Nat.reduceEqDiff, Nat.reduceLeDiff, Nat.zero_le,
    or_self, ne_eq, not_true_eq_false, one_ne_zero, responseOf]
  generalize field w 23 16 = ch, field w 15 8 = res, field w 7 0 = gain
  have hrange := isChannel_iff_range ch
  split_ifs with hch hres hgain
  · rw [encfgResponse_illegalChannel (Bool.eq_false_iff.2 fun h => hrange.1 h hch)]
    rfl
  · rw [encfgResponse_illegalResolution hres.2 (hrange.2 hch) hres.1]
    rfl
  · rw [encfgResponse_illegalGain hgain.2 (hrange.2 hch) (not_not.1 fun h => hres ⟨h, hgain.2⟩) hgain.1]
    rfl
  · rw [encfgResponse_completes (hrange.2 hch) ((not_and_or.1 hres).imp not_not.1 eq_true_of_ne_false)
      ((not_and_or.1 hgain).imp not_not.1 eq_true_of_ne_false)]
    rfl

theorem view_responseOf_decode (p : Params) {w : CommandWord} (hop : Reference.bits w.toNat 63 60 = 2)
    (hrsv : Reference.reserved w.toNat = 0) :
    Response.view (responseOf p (.decode (field w 47 40) (field w 39 32) (rawField w))) =
      Reference.view p.legacyFallback w.toNat := by
  simp only [Reference.view, hop, hrsv, bits_eq_field, reduceIte, Nat.reduceEqDiff, Nat.reduceLeDiff, Nat.zero_le,
    or_self, ne_eq, not_true_eq_false, responseOf, decodeResponse,
    isResolution_iff_legalRes, Reference.legalRes, ← numDataBytes_eq_payload, ite_not]
  split_ifs with hres hnb
  · rw [hnb, decodeCore_adj, decodeCore_snap]
    rfl
  · rfl
  · rfl

theorem view_responseOf_scale (p : Params) {w : CommandWord} (hop : Reference.bits w.toNat 63 60 = 3)
    (hrsv : Reference.reserved w.toNat = 0) :
    Response.view (responseOf p (.scale (field w 47 40) (field w 39 32) (field w 31 0))) =
      Reference.view p.legacyFallback w.toNat := by
  simp only [Reference.view, hop, hrsv, bits_eq_field, reduceIte, Nat.reduceEqDiff, Nat.reduceLeDiff, Nat.zero_le,
    or_self, ne_eq, not_true_eq_false, responseOf, scaleResponse,
    isResolution_iff_legalRes, Reference.legalRes, isGain_iff_legalGain, Reference.legalGain, ite_not, ← toInt_count,
    BitVec.ofNat_toNat, BitVec.setWidth_eq]
  split_ifs <;> rfl

theorem view_responseOf_convert (p : Params) {w : CommandWord} (hop : Reference.bits w.toNat 63 60 = 4)
    (hrsv : Reference.reserved w.toNat = 0) :
    Response.view (responseOf p (.convert (field w 47 40) (field w 39 32) (rawField w))) =
      Reference.view p.legacyFallback w.toNat := by
  simp only [Reference.view, hop, hrsv, bits_eq_field, reduceIte, Nat.reduceEqDiff, Nat.reduceLeDiff, Nat.zero_le,
    or_self, ne_eq, not_true_eq_false, responseOf, convertResponse,
    isResolution_iff_legalRes, Reference.legalRes, isGain_iff_legalGain, Reference.legalGain, ite_not, decodeCore_adj,
    decodeCore_snap, BitVec.ofNat_toNat, BitVec.setWidth_eq]
  split_ifs <;> rfl

theorem view_responseOf_gainf (p : Params) {w : CommandWord} (hop : Reference.bits w.toNat 63 60 = 5)
    (hrsv : Reference.reserved w.toNat = 0) :
    Response.view (responseOf p (.gainf (field w 7 0))) = Reference.view p.legacyFallback w.toNat := by
  simp only [Reference.view, hop, hrsv, bits_eq_field, reduceIte, Nat.reduceEqDiff, Nat.reduceLeDiff, Nat.zero_le,
    or_self, ne_eq, not_true_eq_false, responseOf, gainfResponse, Nat.one_shiftLeft]
  split <;> rfl

theorem view_responseOf_resb (p : Params) {w : CommandWord} (hop : Reference.bits w.toNat 63 60 = 6)
    (hrsv : Reference.reserved w.toNat = 0) :
    Response.view (responseOf p (.resb (field w 7 0))) = Reference.view p.legacyFallback w.toNat := by
  simp only [Reference.view, hop, hrsv, bits_eq_field, reduceIte, Nat.reduceEqDiff, Nat.reduceLeDiff, Nat.zero_le,
    or_self, ne_eq, not_true_eq_false, responseOf, resbResponse]
  split <;> rfl

/-! The reserved field of each format (R62 to R66). -/

theorem reserved_formatC {w : Nat} (hop : Reference.bits w 63 60 = 1) :
    Reference.reserved w = Reference.bits w 59 24 := by
  rw [Reference.reserved, if_pos hop]

theorem reserved_formatDSV {w : Nat} (h1 : Reference.bits w 63 60 ≠ 1) (h4 : Reference.bits w 63 60 ≤ 4) :
    Reference.reserved w = Reference.bits w 59 48 := by
  rw [Reference.reserved, if_neg h1, if_pos h4]

theorem reserved_formatH {w : Nat} (h5 : 5 ≤ Reference.bits w 63 60) :
    Reference.reserved w = Reference.bits w 59 8 := by
  rw [Reference.reserved, if_neg (by omega), if_neg (by omega)]

/-- A word of a defined op has the reference's response when its command has, because the reserved field is checked
before any operand (R69, R224). -/
theorem view_of_definedOp (p : Params) {w : CommandWord} {n : Nat} {i : Instr}
    (hd : decode w = if n = 0 then .ok i else .error .reservedBits) (hn : Reference.reserved w.toNat = n)
    (hop : ¬ (Reference.bits w.toNat 63 60 = 0 ∨ 7 ≤ Reference.bits w.toNat 63 60))
    (hi : Reference.reserved w.toNat = 0 →
      Response.view (responseOf p i) = Reference.view p.legacyFallback w.toNat) :
    Response.view (wordResponse p w) = Reference.view p.legacyFallback w.toNat := by
  subst hn
  by_cases hrsv : Reference.reserved w.toNat = 0
  · rw [wordResponse, hd, if_pos hrsv]
    exact hi hrsv
  · rw [wordResponse, hd, if_neg hrsv, Reference.view, if_neg hop, if_pos hrsv]
    rfl

/-- The ports after each of the words are the reference's. -/
theorem view_wordResponse (p : Params) (w : CommandWord) :
    Response.view (wordResponse p w) = Reference.view p.legacyFallback w.toNat := by
  have hcases := decode_cases w
  rw [← bits_op] at hcases
  rcases hcases with ⟨hop, hd⟩ | ⟨hop, hd⟩ | ⟨hop, hd⟩ | ⟨hop, hd⟩ | ⟨hop, hd⟩ | ⟨hop, hd⟩ |
    ⟨hop, hd⟩
  · rw [wordResponse, hd, Reference.view, if_pos hop]
    rfl
  · exact view_of_definedOp p hd (reserved_formatC hop) (by omega) (view_responseOf_encfg p hop)
  · exact view_of_definedOp p hd (reserved_formatDSV (by omega) (by omega)) (by omega)
      (view_responseOf_decode p hop)
  · exact view_of_definedOp p hd (reserved_formatDSV (by omega) (by omega)) (by omega)
      (view_responseOf_scale p hop)
  · exact view_of_definedOp p hd (reserved_formatDSV (by omega) (by omega)) (by omega)
      (view_responseOf_convert p hop)
  · exact view_of_definedOp p hd (reserved_formatH (by omega)) (by omega) (view_responseOf_gainf p hop)
  · exact view_of_definedOp p hd (reserved_formatH (by omega)) (by omega) (view_responseOf_resb p hop)

/-- Settles O15: a ready block answers with `wordResponse`, whose ports are the reference's op by op. -/
theorem everyWordGetsItsSpecifiedResponse : Obligations.EveryWordGetsItsSpecifiedResponse := by
  intro s w hs
  refine ⟨_, step_ready hs, ?_, ?_⟩
  · rw [State.view_drive, State.respond_withPorts, State.withPorts_view, view_wordResponse]
  · rw [State.drive_params, State.respond_params]

end Sys2Proof
end

section
/-! PROOFS. The word of a DECODE and the response to it on legal operands (30_encoding.md R63,
41_response_decoder.md R146): the settlement of O33. -/

namespace Sys2Proof

/-- The four bytes of a word's raw field are the word's lowest 32 bits, `raw[0]` first (R44). -/
theorem rawField_eq {w : CommandWord} {raw : Raw} (h : w.toNat % 2 ^ 32 = rawNat raw) : rawField w = raw := by
  obtain ⟨b0, b1, b2, b3⟩ := raw
  simp only [rawNat] at h
  rw [rawField, field_eq_cast w 31 24 b0 rfl (by omega), field_eq_cast w 23 16 b1 rfl (by omega),
    field_eq_cast w 15 8 b2 rfl (by omega), field_eq_cast w 7 0 b3 rfl (by omega)]
  rfl

/-- The word of a DECODE has op 2, zero reserved bits and the operands in their fields (R63). -/
theorem decode_encode_decode (nb res : Byte) (raw : Raw) :
    decode (encode (.decode nb res raw)) = .ok (.decode nb res raw) := by
  have hw : (encode (.decode nb res raw)).toNat = 2 * 2 ^ 60 + nb.toNat * 2 ^ 40 + res.toNat * 2 ^ 32 + rawNat raw :=
    encode_toNat _
  have hraw : rawNat raw < 2 ^ 32 := by rw [rawNat]; omega
  generalize encode (.decode nb res raw) = w at hw
  obtain ⟨hop, -⟩ | ⟨hop, -⟩ | ⟨-, hd⟩ | ⟨hop, -⟩ | ⟨hop, -⟩ | ⟨hop, -⟩ | ⟨hop, -⟩ := decode_cases w
  case inr.inr.inl =>
    rw [hd, if_pos (by omega), field_eq_cast w 47 40 nb rfl (by omega), field_eq_cast w 39 32 res rfl (by omega),
      rawField_eq (raw := raw) (by omega)]
    rfl
  all_goals omega

namespace Machine

/-- R146's domain: a legal resolution and its payload length, as DECODE checks them. -/
theorem decode_checks_iff (nb res : Byte) :
    legalResolutions.contains res = true ∧ nb.toNat = Reference.payload res.toNat ↔
      isResolution res = true ∧ nb.toNat = numDataBytes res := by
  rw [isResolution_iff_legal, numDataBytes_eq_payload]

/-- On legal operands DECODE reports OK for every raw response (R146). -/
theorem respond_decode_status {nb res : Byte}
    (h : legalResolutions.contains res = true ∧ nb.toNat = Reference.payload res.toNat) (raw : Raw) (s : State) :
    (s.respond (decodeResponse nb res raw)).status = some 0 := by
  obtain ⟨hres, hnb⟩ := (decode_checks_iff nb res).1 h
  rw [decodeResponse_legal hres hnb, State.respond_ok, State.complete_status, statusOk]

end Machine

open Machine

/-- Settles O33: the word of a DECODE decodes to it, and DECODE on legal operands reports OK, so one that does not has
others. -/
theorem decodeAlwaysSucceedsOnLegalOperands : Obligations.DecodeAlwaysSucceedsOnLegalOperands := by
  refine fun s nb res raw => ⟨fun hlegal hready => ⟨_, step_ready hready, ?_⟩, fun t ht hstatus hlegal => ?_⟩
  · rw [State.drive_status, wordResponse, decode_encode_decode]
    exact respond_decode_status hlegal raw s
  · rw [exec_next ht] at hstatus
    exact hstatus (respond_decode_status hlegal raw s)

end Sys2Proof
end

section
/-! PROOFS. The ranges of the decoder's counts (41_response_decoder.md R147): the settlement of O35. -/

namespace Sys2Proof

namespace Reference

/-- Where the mask removes the sign bits, the count lies below the sign bit's place (R141 to R143). -/
theorem count_lt_of_masked {res b0 b1 b2 : Nat} (hres : res = 12 ∨ res = 14 ∨ res = 18) (h1 : b1 < 256)
    (h2 : b2 < 256) : count res b0 b1 b2 < 2 ^ (res - 1) := by
  rcases hres with rfl | rfl | rfl <;> simp only [count, Nat.reduceEqDiff, reduceIte, Nat.reduceSub, Nat.reducePow] <;>
    omega

theorem adjusted_of_nonneg {b0 : Nat} (h : b0 < 128) (res b1 b2 : Nat) :
    adjusted res b0 b1 b2 = count res b0 b1 b2 := if_neg (by omega)

theorem adjusted_of_neg {b0 : Nat} (h : 128 ≤ b0) (res b1 b2 : Nat) :
    adjusted res b0 b1 b2 = (count res b0 b1 b2 : Int) - (2 ^ (res - 1) - 1) := if_pos h

/-- The rows of 12, 14 and 18 bits in R147's table, with `k` the greatest count that the masks leave: a negative first
byte moves the count from `0..k` to `-k..0`. -/
theorem masked_ranges {res k b0 b1 b2 : Nat} (hres : res = 12 ∨ res = 14 ∨ res = 18) (hk : 2 ^ (res - 1) = k + 1)
    (h1 : b1 < 256) (h2 : b2 < 256) : count res b0 b1 b2 ≤ k ∧
      (b0 < 128 → 0 ≤ adjusted res b0 b1 b2 ∧ adjusted res b0 b1 b2 ≤ k) ∧
      (128 ≤ b0 → -k ≤ adjusted res b0 b1 b2 ∧ adjusted res b0 b1 b2 ≤ 0) := by
  have hcount := count_lt_of_masked (b0 := b0) hres h1 h2
  have hpow : (2 : Int) ^ (res - 1) = k + 1 := mod_cast hk
  refine ⟨by omega, fun h => ?_, fun h => ?_⟩
  · rw [adjusted_of_nonneg h]; omega
  · rw [adjusted_of_neg h, hpow]; omega

/-- The row of 16 bits in R147's table: the first byte is not masked, so its sign says in which half the count lies. -/
theorem sixteen_ranges {b0 b1 : Nat} (h0 : b0 < 256) (h1 : b1 < 256) (b2 : Nat) :
    count 16 b0 b1 b2 = b0 * 256 + b1 ∧ count 16 b0 b1 b2 ≤ 65535 ∧ (b0 < 128 → count 16 b0 b1 b2 ≤ 32767) ∧
      (128 ≤ b0 → 32768 ≤ count 16 b0 b1 b2 ∧ adjusted 16 b0 b1 b2 = (count 16 b0 b1 b2 : Int) - 32767) ∧
      (b0 < 128 → 0 ≤ adjusted 16 b0 b1 b2 ∧ adjusted 16 b0 b1 b2 ≤ 32767) ∧
      (128 ≤ b0 → 1 ≤ adjusted 16 b0 b1 b2 ∧ adjusted 16 b0 b1 b2 ≤ 32768) := by
  have hcount : count 16 b0 b1 b2 = b0 * 256 + b1 := rfl
  rcases lt_or_ge b0 128 with h | h
  · have hadj := adjusted_of_nonneg h 16 b1 b2
    omega
  · have hadj := adjusted_of_neg h 16 b1 b2
    omega

/-- The adjusted count of every legal resolution and every raw response (R147). -/
theorem adjusted_range {res b0 b1 b2 : Nat} (hres : legalRes res) (h0 : b0 < 256) (h1 : b1 < 256) (h2 : b2 < 256) :
    -131071 ≤ adjusted res b0 b1 b2 ∧ adjusted res b0 b1 b2 ≤ 131071 := by
  rcases hres with rfl | rfl | rfl | rfl
  · have hrow := masked_ranges (k := 2047) (b0 := b0) (.inl rfl) rfl h1 h2
    omega
  · have hrow := masked_ranges (k := 8191) (b0 := b0) (.inr (.inl rfl)) rfl h1 h2
    omega
  · have hrow := sixteen_ranges h0 h1 b2
    omega
  · have hrow := masked_ranges (k := 131071) (b0 := b0) (.inr (.inr rfl)) rfl h1 h2
    omega

end Reference

namespace Machine

/-- What a DECODE that delivers a count says: its operands are legal, and the count is the decoder core's (R140). -/
theorem decodeResponse_int {nb res : Byte} {raw : Raw} {s : State} {v : Count}
    (h : (s.respond (decodeResponse nb res raw)).outInt = some v) :
    isResolution res = true ∧ nb.toNat = numDataBytes res ∧
      v = BitVec.ofInt 32 (decodeCore raw (numDataBytes res) res).adj := by
  unfold decodeResponse at h
  split at h
  next hres =>
    split at h
    next hnb => exact ⟨hres, hnb, hnb ▸ (Option.some.inj h).symm⟩
    next => cases h
  next => cases h

/-- The sign rule on the reference's count is the reference's adjusted count (R144). -/
theorem adjustedCount_count (res : Byte) (raw : Raw) :
    adjustedCount res raw.b0 (Reference.count res.toNat raw.b0.toNat raw.b1.toNat raw.b2.toNat) =
      Reference.adjusted res.toNat raw.b0.toNat raw.b1.toNat raw.b2.toNat := by
  rw [← assembledCount_workingBuffer]
  exact decodeCore_adj res raw

/-- The count port holds the adjusted count of a legal resolution without overflow (R147). -/
theorem toInt_ofInt_adjusted {res : Nat} (hres : Reference.legalRes res) (raw : Raw) :
    (BitVec.ofInt 32 (Reference.adjusted res raw.b0.toNat raw.b1.toNat raw.b2.toNat)).toInt =
      Reference.adjusted res raw.b0.toNat raw.b1.toNat raw.b2.toNat := by
  obtain ⟨hlow, hhigh⟩ := Reference.adjusted_range hres raw.b0.isLt raw.b1.isLt raw.b2.isLt
  exact BitVec.toInt_ofInt_eq_self (by decide) (by omega) (by omega)

end Machine

open Machine

/-- Settles O35: the count on the port is the reference's, whose ranges are those of its masked and unmasked rows. -/
theorem adjustedCountRanges : Obligations.AdjustedCountRanges := by
  intro nb res raw s t v ht hv
  rw [exec_next ht, responseOf] at hv
  obtain ⟨hisRes, hnb, rfl⟩ := decodeResponse_int hv
  have hres := (isResolution_iff_legalRes res).1 hisRes
  have h0 := raw.b0.isLt
  have h1 := raw.b1.isLt
  have h2 := raw.b2.isLt
  simp only [hnb, decodeCore_adj, toInt_ofInt_adjusted hres, assembledCount_workingBuffer, adjustedCount_count,
    true_and]
  refine ⟨?_, ?_, ?_, ?_, Reference.adjusted_range hres h0 h1 h2⟩ <;> rintro rfl
  · obtain ⟨hcount, hnonneg, hneg⟩ := Reference.masked_ranges (k := 131071) (.inr (.inr rfl)) rfl h1 h2
    -- R147 prints the bound 1 where the formula reaches 0 (log entry 12).
    exact ⟨hcount, hnonneg, fun h => ⟨(hneg h).1, (hneg h).2.trans (by decide)⟩⟩
  · exact Reference.sixteen_ranges h0 h1 raw.b2.toNat
  · exact Reference.masked_ranges (k := 8191) (.inr (.inl rfl)) rfl h1 h2
  · exact Reference.masked_ranges (k := 2047) (.inl rfl) rfl h1 h2

end Sys2Proof
end

section
/-! PROOFS. The LSB of each resolution (42_voltage_scaler.md R180): twice VREF scaled by a power of two, and the
settlement of O44. -/

namespace Sys2Proof

namespace Machine

/-- Doubling VREF keeps its significand: the first operation of R180 rounds nothing. -/
theorem two_vref_finite : unpackF64 (mulRN (f64 2) vref) = .finite false 0x10624DD2F1A9FC (-50) := by decide

theorem two_vref_value {v : ℚ} (hv : f64Value vref = some v) : f64Value (mulRN (f64 2) vref) = some (2 * v) := by
  obtain rfl := Option.some.inj (vref_value.symm.trans hv)
  rw [f64Value_finite two_vref_finite, signQ]
  norm_num

/-- The LSB as an integer number of its last places. -/
theorem lsb_value {res : Byte} (h : isResolution res = true) :
    f64Value (lsb res) = some (((0x10624DD2F1A9FC : Int) : ℚ) * 2 ^ (-51 + (1 - (res.toNat : Int)))) := by
  rw [f64Value_finite (lsb_finite h), signQ, show -50 - (res.toNat : Int) = -51 + (1 - (res.toNat : Int)) by omega]
  norm_num

theorem lsb_value_vref {res : Byte} (h : isResolution res = true) {v : ℚ} (hv : f64Value vref = some v) :
    f64Value (lsb res) = some (v * 2 ^ (1 - (res.toNat : Int))) := by
  obtain rfl := Option.some.inj (vref_value.symm.trans hv)
  rw [lsb_value h, zpow_add₀ two_ne_zero, mul_assoc]

/-- VREF is nearest to 2.048 with the last place `2 ^ (-51)`; multiplying by a power of two moves the number, its
distance and the last place alike. -/
theorem lsb_nearestEven {res : Byte} (h : isResolution res = true) :
    Reference.NearestEven (2048 / 1000 * 2 ^ (1 - (res.toNat : Int))) (lsb res) := by
  have hscale : (0 : ℚ) < 2 ^ (1 - (res.toNat : Int)) := by positivity
  refine nearestEven_of_half_ulp (lsb_value h) ?_ ?_
  · rw [zpow_add₀ two_ne_zero, ← mul_assoc]
    gcongr
    norm_num
  · have hvref : |((0x10624DD2F1A9FC : Int) : ℚ) * 2 ^ (-51 : Int) - 2048 / 1000| < 2 ^ (-51 : Int) / 2 := by
      norm_num [abs_lt]
    rw [zpow_add₀ two_ne_zero, ← mul_assoc, ← sub_mul, abs_mul, abs_of_pos hscale, mul_div_right_comm]
    gcongr

/-- The decimals of R180's table are 2.048 times a power of two, the one of the resolution. -/
theorem lsb_nearestEven_decimal {res : Byte} (h : isResolution res = true) {k : Int} {x : ℚ}
    (hk : 1 - (res.toNat : Int) = k) (hx : 2048 / 1000 * 2 ^ k = x) : Reference.NearestEven x (lsb res) := by
  rw [← hx, ← hk]
  exact lsb_nearestEven h

end Machine

open Machine

/-- Settles O44: the patterns are computed; that the operations are exact and the decimals nearest holds for every legal
resolution, from VREF's value and its distance to 2.048. -/
theorem lsbPatterns : Obligations.LsbPatterns := by
  refine ⟨by decide, by decide, by decide, by decide, ?_, ?_, ?_, ?_, fun res hres v hv =>
    ⟨rfl, two_vref_value hv, lsb_value_vref ((isResolution_iff_legalRes res).2 hres) hv⟩⟩
  · exact lsb_nearestEven_decimal (k := -11) (by decide) rfl (by norm_num)
  · exact lsb_nearestEven_decimal (k := -13) (by decide) rfl (by norm_num)
  · exact lsb_nearestEven_decimal (k := -15) (by decide) rfl (by norm_num)
  · exact lsb_nearestEven_decimal (k := -17) (by decide) rfl (by norm_num)

end Sys2Proof
end

section
/-! PROOFS. CONVERT beside DECODE followed by SCALE (42_voltage_scaler.md R185): the settlement of O51. -/

namespace Sys2Proof

namespace Machine

/-- SCALE of legal operands delivers the scaled count (R183). -/
theorem scaleResponse_legal {gain res : Byte} (hres : isResolution res = true) (hgain : isGain gain = true)
    (count : Count) : scaleResponse gain res count = .ok { f64 := some (scaleCore count.toInt res gain) } := by
  simp [scaleResponse, hres, hgain]

/-- CONVERT of legal operands delivers the decoder core's count and snapshot, and that count scaled (R184). -/
theorem convertResponse_legal {gain res : Byte} (hres : isResolution res = true) (hgain : isGain gain = true)
    (raw : Raw) : convertResponse gain res raw =
      .ok { int := some (BitVec.ofInt 32 (decodeCore raw (numDataBytes res) res).adj),
            snap := some (decodeCore raw (numDataBytes res) res).snap,
            f64 := some (scaleCore (decodeCore raw (numDataBytes res) res).adj res gain) } := by
  simp [convertResponse, hres, hgain]

theorem exec_of_ok {i : Instr} {s : State} {r : Results} (h : responseOf s.params i = .ok r) :
    exec i s = .next (s.complete r) := by
  rw [exec_eq_answer, answer_eq_next, h, State.respond_ok]

/-- The decoder core's count fits the port: read back as a signed word, it is the count (R147). -/
theorem toInt_ofInt_decodeCore {res : Byte} (hres : isResolution res = true) (raw : Raw) :
    (BitVec.ofInt 32 (decodeCore raw (numDataBytes res) res).adj).toInt =
      (decodeCore raw (numDataBytes res) res).adj := by
  rw [decodeCore_adj]
  exact toInt_ofInt_adjusted ((isResolution_iff_legalRes res).1 hres) raw

end Machine

open Machine

/-- Settles O51: the three commands complete on legal operands, and SCALE reads from the count port the integer that
CONVERT scales, because the count fits in 32 bits. -/
theorem convertEqualsDecodeThenScale : Obligations.ConvertEqualsDecodeThenScale := by
  intro raw res gain s hlegalRes hlegalGain
  have hres : isResolution res = true := (isResolution_iff_legal res).trans hlegalRes
  have hgain : isGain gain = true := (isGain_iff_legal gain).trans hlegalGain
  refine ⟨_, _, _, _, exec_of_ok (decodeResponse_legal hres (toNat_ofNat_numDataBytes res) raw), rfl,
    exec_of_ok (scaleResponse_legal hres hgain _), exec_of_ok (convertResponse_legal hres hgain raw), rfl, rfl, rfl, ?_⟩
  rw [State.complete_outF64, State.complete_outF64, toInt_ofInt_decodeCore hres]

end Sys2Proof
end

section
/-! PROOFS. The conversion delay of the host's read request (70_reset_and_hazards.md R262): the settlement of O52. -/

namespace Sys2Proof

namespace Machine

/-- The resolutions without a sample rate are the illegal ones (R72). -/
theorem sampleRate_eq_none_iff (res : Byte) : sampleRate res = none ↔ ¬ Reference.legalRes res.toNat := by
  unfold sampleRate Reference.legalRes
  split <;> simp_all

/-- With a sample rate, the delay is 1000 over that rate as a rational number, rounded down, plus 50: dividing natural
numbers rounds down. -/
theorem convDelayMs_of_sampleRate {res : Byte} {num den : Nat} (h : sampleRate res = some (num, den)) {rate : ℚ}
    (hrate : rate = num / den) : (convDelayMs res : Int) = ⌊1000 / rate⌋ + 50 := by
  have hfloor : ⌊1000 / rate⌋ = ((1000 * den / num : Nat) : Int) := by
    rw [hrate, div_div_eq_mul_div]
    exact_mod_cast Rat.floor_natCast_div_natCast (1000 * den) num
  rw [hfloor, convDelayMs, h, Nat.cast_add, Nat.cast_ofNat]

/-- Without a sample rate, the delay is the one of any other value. -/
theorem convDelayMs_of_sampleRate_none {res : Byte} (h : sampleRate res = none) : convDelayMs res = 500 + 50 := by
  rw [convDelayMs, h]

end Machine

open Machine

/-- Settles O52: each legal resolution has the rate of its row, as a fraction, and the illegal ones have none. -/
theorem conversionDelays : Obligations.ConversionDelays := by
  refine fun res => ⟨?_, ?_, ?_, ?_, fun hillegal =>
    convDelayMs_of_sampleRate_none ((sampleRate_eq_none_iff res).2 hillegal)⟩
  all_goals
    rintro rfl
    exact ⟨convDelayMs_of_sampleRate rfl (by norm_num), rfl⟩

end Sys2Proof
end

section
/-! PROOFS. The encoder and the decoder as inverses, and the reserved bits (30_encoding.md R61 to R69, R81): the
settlement of O1, O2, O3, O4 and O6. -/

namespace Sys2Proof

/-- A word of format C with these operands decodes to ENCFG (R62). -/
theorem decode_formatC {w : CommandWord} {ch res gain : Byte} (hop : w.toNat / 2 ^ 60 = 1)
    (hrest : w.toNat % 2 ^ 60 = ch.toNat * 2 ^ 16 + res.toNat * 2 ^ 8 + gain.toNat) :
    decode w = .ok (.encfg ch res gain) := by
  obtain ⟨h, -⟩ | ⟨-, hd⟩ | ⟨h, -⟩ | ⟨h, -⟩ | ⟨h, -⟩ | ⟨h, -⟩ | ⟨h, -⟩ := decode_cases w
  case inr.inl =>
    rw [hd, if_pos (by omega), field_eq_cast w 23 16 ch rfl (by omega), field_eq_cast w 15 8 res rfl (by omega),
      field_eq_cast w 7 0 gain rfl (by omega)]
    rfl
  all_goals omega

/-- The fields of a word with two operand bytes and 32 bits below them (R63 to R65). -/
theorem fields_formatDSV {w : CommandWord} {x res : Byte} {low : Nat} (hlow : low < 2 ^ 32)
    (hrest : w.toNat % 2 ^ 60 = x.toNat * 2 ^ 40 + res.toNat * 2 ^ 32 + low) :
    w.toNat / 2 ^ 48 % 2 ^ 12 = 0 ∧ field w 47 40 = x ∧ field w 39 32 = res ∧ w.toNat % 2 ^ 32 = low :=
  ⟨by omega, field_eq_cast w 47 40 x rfl (by omega), field_eq_cast w 39 32 res rfl (by omega), by omega⟩

theorem rawNat_lt (raw : Raw) : rawNat raw < 2 ^ 32 := by
  rw [rawNat]; omega

theorem decode_formatS {w : CommandWord} {gain res : Byte} {count : Count} (hop : w.toNat / 2 ^ 60 = 3)
    (hrest : w.toNat % 2 ^ 60 = gain.toNat * 2 ^ 40 + res.toNat * 2 ^ 32 + count.toNat) :
    decode w = .ok (.scale gain res count) := by
  obtain ⟨hrsv, hgain, hres, hlow⟩ := fields_formatDSV count.isLt hrest
  obtain ⟨h, -⟩ | ⟨h, -⟩ | ⟨h, -⟩ | ⟨-, hd⟩ | ⟨h, -⟩ | ⟨h, -⟩ | ⟨h, -⟩ := decode_cases w
  case inr.inr.inr.inl =>
    rw [hd, if_pos hrsv, hgain, hres, field_eq_cast w 31 0 count rfl (by omega)]
    rfl
  all_goals omega

theorem decode_formatV {w : CommandWord} {gain res : Byte} {raw : Raw} (hop : w.toNat / 2 ^ 60 = 4)
    (hrest : w.toNat % 2 ^ 60 = gain.toNat * 2 ^ 40 + res.toNat * 2 ^ 32 + rawNat raw) :
    decode w = .ok (.convert gain res raw) := by
  obtain ⟨hrsv, hgain, hres, hlow⟩ := fields_formatDSV (rawNat_lt raw) hrest
  obtain ⟨h, -⟩ | ⟨h, -⟩ | ⟨h, -⟩ | ⟨h, -⟩ | ⟨-, hd⟩ | ⟨h, -⟩ | ⟨h, -⟩ := decode_cases w
  case inr.inr.inr.inr.inl => rw [hd, if_pos hrsv, hgain, hres, rawField_eq hlow]
  all_goals omega

/-- A word of format H with this code decodes to the helper of its op (R66). -/
theorem decode_formatH {w : CommandWord} {code : Byte} (hrest : w.toNat % 2 ^ 60 = code.toNat) :
    (w.toNat / 2 ^ 60 = 5 → decode w = .ok (.gainf code)) ∧
    (w.toNat / 2 ^ 60 = 6 → decode w = .ok (.resb code)) := by
  have hcode : field w 7 0 = code := field_eq_cast w 7 0 code rfl (by omega)
  obtain ⟨h, -⟩ | ⟨h, -⟩ | ⟨h, -⟩ | ⟨h, -⟩ | ⟨h, -⟩ | ⟨h, hd⟩ | ⟨h, hd⟩ := decode_cases w
  case inr.inr.inr.inr.inr.inl =>
    exact ⟨fun _ => by rw [hd, if_pos (by omega), hcode], fun _ => by omega⟩
  case inr.inr.inr.inr.inr.inr =>
    exact ⟨fun _ => by omega, fun _ => by rw [hd, if_pos (by omega), hcode]⟩
  all_goals exact ⟨fun _ => by omega, fun _ => by omega⟩

theorem decode_encode (i : Instr) : decode (encode i) = .ok i := by
  have hw := encode_toNat i
  generalize hgen : encode i = w at hw
  cases i with
  | encfg ch res gain =>
    rw [encodeNat] at hw
    exact decode_formatC (by omega) (by omega)
  | decode nb res raw => exact hgen ▸ decode_encode_decode nb res raw
  | scale gain res count =>
    rw [encodeNat] at hw
    exact decode_formatS (by omega) (by omega)
  | convert gain res raw =>
    have hraw := rawNat_lt raw
    rw [encodeNat] at hw
    exact decode_formatV (by omega) (by omega)
  | gainf code =>
    rw [encodeNat] at hw
    exact (decode_formatH (by omega)).1 (by omega)
  | resb code =>
    rw [encodeNat] at hw
    exact (decode_formatH (by omega)).2 (by omega)

/-- Settles O2: the op of a command's word selects its arm of the decoder, and each operand is alone in its field. -/
theorem decodeOfEncodeIsIdentity : Obligations.DecodeOfEncodeIsIdentity := decode_encode

/-- The raw bytes of a word, as a number, are the word's lowest 32 bits (R44). -/
theorem rawNat_rawField (w : CommandWord) : rawNat (rawField w) = w.toNat % 2 ^ 32 := by
  simp only [rawNat, rawField, field_toNat]
  omega

/-- A word is its command's number: the op, the operand fields, and reserved bits that are zero. -/
theorem encodeNat_of_decode {w : CommandWord} {i : Instr} (h : decode w = .ok i) : encodeNat i = w.toNat := by
  obtain ⟨-, hd⟩ | ⟨hop, hd⟩ | ⟨hop, hd⟩ | ⟨hop, hd⟩ | ⟨hop, hd⟩ | ⟨hop, hd⟩ | ⟨hop, hd⟩ := decode_cases w
  · rw [hd] at h
    cases h
  all_goals
    rw [hd] at h
    split at h
    next hrsv =>
      cases h
      simp only [encodeNat, field_toNat, rawNat_rawField]
      omega
    next => cases h

/-- Settles O3: `encode` gives the number back that `decode` took apart. -/
theorem encodeOfDecodeIsIdentity : Obligations.EncodeOfDecodeIsIdentity := by
  intro w i h
  apply BitVec.eq_of_toNat_eq
  rw [encode_toNat, encodeNat_of_decode h]

/-- Or-ing a field into a word that is zero from the field's top down is adding the field at its place. -/
theorem toNat_or_field {n : Nat} (x : BitVec 64) (b : BitVec n) (k : Nat) (hk : k + n ≤ 64)
    (hx : 2 ^ (k + n) ∣ x.toNat) : (x ||| b.setWidth 64 <<< k).toNat = x.toNat + b.toNat * 2 ^ k := by
  obtain ⟨c, hc⟩ := hx
  have hb : b.toNat * 2 ^ k < 2 ^ (k + n) := by
    rw [pow_add, mul_comm]
    exact Nat.mul_lt_mul_of_pos_left b.isLt (by positivity)
  have h64 : 2 ^ (k + n) ≤ 2 ^ 64 := Nat.pow_le_pow_right (by norm_num) hk
  have hn : 2 ^ n ≤ 2 ^ 64 := Nat.pow_le_pow_right (by norm_num) (by omega)
  have hfield : (b.setWidth 64 <<< k).toNat = b.toNat * 2 ^ k := by
    rw [BitVec.toNat_shiftLeft, BitVec.toNat_setWidth, Nat.mod_eq_of_lt (b.isLt.trans_le hn), Nat.shiftLeft_eq,
      Nat.mod_eq_of_lt (hb.trans_le h64)]
  rw [BitVec.toNat_or, hfield, hc, ← Nat.two_pow_add_eq_or_of_lt hb]

/-- The lowest field needs no shift. -/
theorem toNat_or_lowField {n : Nat} (x : BitVec 64) (b : BitVec n) (hn : n ≤ 64) (hx : 2 ^ n ∣ x.toNat) :
    (x ||| b.setWidth 64).toNat = x.toNat + b.toNat := by
  have h := toNat_or_field x b 0 (by omega) (by rwa [zero_add])
  rwa [BitVec.shiftLeft_zero, pow_zero, mul_one] at h

theorem toNat_raw_append (r : Raw) : (r.b0 ++ r.b1 ++ r.b2 ++ r.b3).toNat = rawNat r := by
  simp only [Machine.toNat_append_byte, rawNat]
  omega

/-- The row of the assembler table with two operand bytes and 32 bits below them (R81). -/
theorem toNat_row_formatDSV (op : BitVec 64) (hop : 2 ^ 60 ∣ op.toNat) (x res : Byte) (low : BitVec 32) :
    (op ||| (x.setWidth 64 <<< 40) ||| (res.setWidth 64 <<< 32) ||| low.setWidth 64).toNat =
      op.toNat + x.toNat * 2 ^ 40 + res.toNat * 2 ^ 32 + low.toNat := by
  have hx := toNat_or_field op x 40 (by norm_num) (by omega)
  have hres := toNat_or_field (op ||| x.setWidth 64 <<< 40) res 32 (by norm_num) (by omega)
  rw [toNat_or_lowField _ _ (by norm_num) (by omega), hres, hx]

/-- The row of the assembler table with three operand bytes (R81). -/
theorem toNat_row_formatC (op : BitVec 64) (hop : 2 ^ 60 ∣ op.toNat) (ch res gain : Byte) :
    (op ||| (ch.setWidth 64 <<< 16) ||| (res.setWidth 64 <<< 8) ||| gain.setWidth 64).toNat =
      op.toNat + ch.toNat * 2 ^ 16 + res.toNat * 2 ^ 8 + gain.toNat := by
  have hch := toNat_or_field op ch 16 (by norm_num) (by omega)
  have hres := toNat_or_field (op ||| ch.setWidth 64 <<< 16) res 8 (by norm_num) (by omega)
  rw [toNat_or_lowField _ _ (by norm_num) (by omega), hres, hch]

theorem encode_eq_of_toNat {i : Instr} {w : CommandWord} (h : w.toNat = encodeNat i) : encode i = w :=
  BitVec.eq_of_toNat_eq ((encode_toNat i).trans h.symm)

/-- Settles O4: the fields of a row do not overlap, so or-ing them at their places is adding them there. -/
theorem encodeIsTheAssemblerWord : Obligations.EncodeIsTheAssemblerWord := by
  refine ⟨fun ch res gain => ?_, fun nb res r => ?_, fun gain res count => ?_, fun gain res r => ?_, fun code => ?_,
    fun code => ?_⟩ <;> apply encode_eq_of_toNat
  · exact toNat_row_formatC _ (by decide) ch res gain
  · exact (toNat_row_formatDSV _ (by decide) nb res _).trans (by rw [toNat_raw_append]; rfl)
  · exact toNat_row_formatDSV _ (by decide) gain res count
  · exact (toNat_row_formatDSV _ (by decide) gain res _).trans (by rw [toNat_raw_append]; rfl)
  · exact toNat_or_lowField _ code (by norm_num) (by decide)
  · exact toNat_or_lowField _ code (by norm_num) (by decide)

/-- Settles O1: the six words are evaluated. -/
theorem writtenOutWordsDecode : Obligations.WrittenOutWordsDecode := ⟨rfl, rfl, rfl, rfl, rfl, rfl⟩

/-- A word of a defined op decodes by its format's reserved field alone (R69). -/
theorem decode_definedOp {w : CommandWord} (h1 : 1 ≤ Reference.bits w.toNat 63 60)
    (h6 : Reference.bits w.toNat 63 60 ≤ 6) :
    ∃ i, decode w = if Reference.reserved w.toNat = 0 then .ok i else .error .reservedBits := by
  have hformat {n : Nat} {i : Instr} (hd : decode w = if n = 0 then .ok i else .error .reservedBits)
      (hn : Reference.reserved w.toNat = n) :
      ∃ i, decode w = if Reference.reserved w.toNat = 0 then .ok i else .error .reservedBits := ⟨i, hn ▸ hd⟩
  have hcases := decode_cases w
  rw [← bits_op] at hcases
  obtain ⟨hop, -⟩ | ⟨hop, hd⟩ | ⟨hop, hd⟩ | ⟨hop, hd⟩ | ⟨hop, hd⟩ | ⟨hop, hd⟩ | ⟨hop, hd⟩ := hcases
  · omega
  · exact hformat hd (reserved_formatC hop)
  · exact hformat hd (reserved_formatDSV (by omega) (by omega))
  · exact hformat hd (reserved_formatDSV (by omega) (by omega))
  · exact hformat hd (reserved_formatDSV (by omega) (by omega))
  · exact hformat hd (reserved_formatH (by omega))
  · exact hformat hd (reserved_formatH (by omega))

open Machine

/-- Settles O6: the reserved field decides between the command and RESERVED_BITS, the fault that the step raises. -/
theorem reservedBitsAreIllegal : Obligations.ReservedBitsAreIllegal := by
  refine ⟨fun w h1 h6 => ?_, fun s w hs h1 h6 hrsv => ?_⟩ <;> obtain ⟨i, hi⟩ := decode_definedOp h1 h6
  · exact ⟨fun hrsv => by rw [hi, if_neg hrsv], fun hrsv => ⟨i, by rw [hi, if_pos hrsv]⟩⟩
  · rw [if_neg hrsv] at hi
    refine ⟨_, step_illegal hs hi, ?_, ?_⟩
    · rw [State.view_drive, State.withPorts_view, illegalInfo]
    · rw [State.drive_params, State.withPorts_params]

end Sys2Proof
end

section
/-! PROOFS. What a step does with the pins: the word, the strobe, reset and the host's reads (10_state.md R22, R24, R32,
70_reset_and_hazards.md R260): the settlement of O8 to O14, O16 and O23. -/

namespace Sys2Proof

open Machine

/-- Settles O8: a step's word response is that of the command it decodes to. -/
theorem stepRunsTheDecodedCommand : Obligations.StepRunsTheDecodedCommand := by
  refine ⟨fun s w i hs hw => ⟨_, exec_eq_answer i s, ?_⟩, fun s w => ⟨?_, rfl, rfl, rfl⟩⟩
  · rw [step_ready hs, wordResponse, hw]
  · rw [State.withFetchWord_cmd, Nat.mod_eq_of_lt w.isLt, BitVec.ofNat_toNat, BitVec.setWidth_eq]

namespace Machine

theorem readFault_of_rd_none {s : State} (h : s.rd = none) : readFault s = none := by
  rw [readFault, h]

/-- A step with neither strobe nor reset only takes the host's next action. -/
theorem step_idle {s : State} (hf : readFault s = none) (hv : s.cmdValid = false) (hr : s.rst = false) :
    step s = .next s.drive := by
  simp [step, hf, hv, hr]

theorem drive_of_no_inputs {s : State} (h : s.inputs = []) :
    s.drive = { s with cmdValid := false, rst := false, rd := none } := by
  rw [State.drive, h]

/-- When the host has nothing further to do, a step leaves the pins idle, whatever it did to the ports. -/
theorem step_next_of_no_inputs {s t : State} (hi : s.inputs = []) (h : step s = .next t) :
    ∃ u : State, u.inputs = [] ∧ t = { u with cmdValid := false, rst := false, rd := none } := by
  rcases step_next_cases h with rfl | rfl | rfl
  · exact ⟨s.clearPorts, hi, drive_of_no_inputs hi⟩
  · have hu : (s.respond (wordResponse s.params s.cmd)).inputs = [] := (State.respond_inputs _ s).trans hi
    exact ⟨_, hu, drive_of_no_inputs hu⟩
  · exact ⟨s, hi, drive_of_no_inputs hi⟩

end Machine

/-- Settles O9: an idle step is `drive`, which does not touch the ports, and with no action left it changes nothing. -/
theorem oneExecutionPerStrobe : Obligations.OneExecutionPerStrobe := by
  refine ⟨fun s hv hr hf => ⟨_, step_idle hf hv hr, State.view_drive s, State.drive_params s⟩, fun s t hi ht => ?_⟩
  obtain ⟨u, hu, rfl⟩ := step_next_of_no_inputs hi ht
  exact ⟨rfl, rfl, rfl, hu, (step_idle rfl rfl rfl).trans (congrArg _ (drive_of_no_inputs hu))⟩

namespace Machine

/-- If the six ports show no value, a read of any of them meets none. -/
theorem port_of_emptyView {s : State} (h : s.view = emptyView) (p : Port) : s.port p = none := by
  obtain ⟨h1, h2, h3, h4, h5, h6⟩ := PortView.mk.inj h
  cases p
  case status => exact h1
  case faultInfo => exact h2
  case outByte => exact h3
  case outInt => exact h4
  case outSnap => exact h5
  case outF64 => exact h6

/-- A host's read of a port that holds no value stops the machine. -/
theorem step_of_noValue {s : State} {p : Port} (h : s.rd = some p) (h2 : s.port p = none) :
    step s = .fault (.portHoldsNoValue p) := by
  rw [step, readFault_of_noValue h h2]

theorem view_clearPorts_drive (s : State) : s.clearPorts.drive.view = emptyView := State.view_drive _

end Machine

/-- Settles O10: reset takes `clearPorts`, and the reset state is empty by definition. -/
theorem resetLeavesNoValues : Obligations.ResetLeavesNoValues :=
  ⟨fun s hr hf => ⟨_, step_reset hf hr, view_clearPorts_drive s, State.drive_params _⟩,
    fun _ p hview hrd => step_of_noValue hrd (port_of_emptyView hview p), rfl, rfl⟩

/-- Settles O11: the word presented after the reset meets the same parameters, on which alone its response depends. -/
theorem cutCommandHasNoResponse : Obligations.CutCommandHasNoResponse := by
  intro s w hs
  obtain ⟨hw, hv, hr, hf⟩ := hs
  refine ⟨_, _, step_reset (s := { s with rst := true }) hf rfl, view_clearPorts_drive _,
    step_ready ⟨hw, hv, hr, hf⟩, _, step_ready ⟨rfl, rfl, rfl, rfl⟩, ?_⟩
  rw [State.view_drive, State.view_drive, State.present_params, State.drive_params]
  exact State.view_respond _ _ _

namespace Machine

theorem readFault_of_value {s : State} {p : Port} {v : BitVec p.width} (h : s.rd = some p)
    (hv : s.port p = some v) : readFault s = none := by
  simp [readFault, h, hv]

/-- The host's next action overwrites the read pin. -/
theorem drive_rd_none (s : State) : ({ s with rd := none } : State).drive = s.drive := by
  simp only [State.drive]

/-- A response does not look at the read pin. -/
theorem respond_rd_none (r : Response) (s : State) :
    ({ s with rd := none } : State).respond r = { s.respond r with rd := none } := by
  cases r <;> rfl

/-- A read that does not fault leaves no trace in the step. -/
theorem step_rd_none {s : State} (h : readFault s = none) : step s = step { s with rd := none } := by
  rcases step_cases s with ⟨p, hp, hn, -⟩ | ⟨-, hr, e⟩ | ⟨-, hr, hv, e⟩ | ⟨-, hr, hv, e⟩
  · rw [readFault_of_noValue hp hn] at h
    cases h
  · rw [e, step_reset (s := { s with rd := none }) rfl hr]
    exact congrArg _ (drive_rd_none s.clearPorts).symm
  · rw [e, step_ready (s := { s with rd := none }) ⟨rfl, hv, hr, rfl⟩, respond_rd_none, drive_rd_none]
  · rw [e, step_idle (s := { s with rd := none }) rfl hv hr, drive_rd_none]

end Machine

/-- Settles O12: the read is the first thing a step asks, and no later part of the step looks at it. -/
theorem readFaultsExactlyOnNoValue : Obligations.ReadFaultsExactlyOnNoValue := by
  refine fun s p hp => ⟨step_of_noValue hp, fun v hv => ⟨?_, ?_, fun hstrobe hr => ?_⟩⟩
  · rw [readPort, hv]
  · exact step_rd_none (readFault_of_value hp hv)
  · exact ⟨_, step_idle (readFault_of_value hp hv) hstrobe hr, State.view_drive s, State.drive_params s⟩

/-- Settles O13: of the four things a step can do, three answer a next state and one is the read's fault. -/
theorem onlyReadsOfNoValueStop : Obligations.OnlyReadsOfNoValueStop := by
  intro s
  rcases step_cases s with hfault | ⟨-, -, e⟩ | ⟨-, -, -, e⟩ | ⟨-, -, -, e⟩
  · exact .inr hfault
  all_goals exact .inl ⟨_, e⟩

namespace Machine

/-- A host that reads no port later reads none after its next action either. -/
theorem readsNothing_drive {s : State} (h : s.readsNothing = true) : s.drive.readsNothing = true := by
  unfold State.readsNothing at h
  unfold State.drive
  split <;> simp_all [State.readsNothing]

/-- Neither a response nor reset touches the read pin or the host's later actions. -/
theorem readsNothing_respond (r : Response) (s : State) : (s.respond r).readsNothing = s.readsNothing := by
  rw [State.readsNothing, State.readsNothing, State.respond_rd, State.respond_inputs]

theorem runSteps_succ {s t : State} (h : step s = .next t) (n : Nat) : runSteps (n + 1) s = runSteps n t := by
  rw [runSteps, h]

/-- A step whose host reads no port answers a next state whose host reads none. -/
theorem step_of_readsNothing {s : State} (h : s.readsNothing = true) :
    ∃ t, step s = .next t ∧ t.readsNothing = true := by
  rcases step_cases s with ⟨p, hp, -, -⟩ | ⟨-, -, e⟩ | ⟨-, -, -, e⟩ | ⟨-, -, -, e⟩
  · simp [State.readsNothing, hp] at h
  · exact ⟨_, e, readsNothing_drive (s := s.clearPorts) h⟩
  · exact ⟨_, e, readsNothing_drive ((readsNothing_respond _ s).trans h)⟩
  · exact ⟨_, e, readsNothing_drive h⟩

end Machine

/-- Settles O14, by induction on the number of steps: reading nothing is kept by every step and rules out its fault. -/
theorem runsWithoutReadsAreSafe : Obligations.RunsWithoutReadsAreSafe := by
  intro n
  induction n with
  | zero => exact fun s _ => ⟨s, rfl⟩
  | succ n ih =>
    intro s h
    obtain ⟨t, ht, hreads⟩ := step_of_readsNothing h
    obtain ⟨u, hu⟩ := ih t hreads
    exact ⟨u, (runSteps_succ ht n).trans hu⟩

/-- Settles O16: a command's answer is `withPorts`, which writes the six ports and nothing else. -/
theorem commandsChangeOnlyThePorts : Obligations.CommandsChangeOnlyThePorts :=
  fun i s => ⟨_, exec_withPorts i s, rfl, rfl, rfl, rfl, rfl, rfl, rfl⟩

/-- Settles O23: after reset no port holds a value. -/
theorem resetResponseIsLegal : Obligations.ResetResponseIsLegal := fun _ => rfl

end Sys2Proof
end

section
/-! PROOFS. A run over a list of words (10_state.md R26, 20_memory.md R47): the settlement of O21. -/

namespace Sys2Proof

namespace Machine

theorem drive_of_command {s : State} {w : CommandWord} {rest : List Input} (h : s.inputs = .command w :: rest) :
    s.drive = { s with cmd := w, cmdValid := true, rst := false, rd := none, inputs := rest } := by
  rw [State.drive, h]

/-- A word taken from the host's list is answered in the next step, and the rest of the list stays. -/
theorem step_drive_of_command {s : State} {w : CommandWord} {rest : List Input}
    (h : s.inputs = .command w :: rest) : ∃ u : State, step s.drive = .next u.drive ∧ u.inputs = rest ∧
      u.params = s.params ∧ u.view = Reference.view s.params.legacyFallback w.toNat := by
  have hdrive := drive_of_command h
  have hready : s.drive.ready w := by rw [hdrive]; exact ⟨rfl, rfl, rfl, rfl⟩
  refine ⟨_, step_ready hready, ?_, ?_, ?_⟩
  · rw [State.respond_inputs, hdrive]
  · rw [State.respond_params, State.drive_params]
  · rw [State.respond_withPorts, State.withPorts_view, view_wordResponse, State.drive_params]

/-- Once the first word is on the pins, a run over the words ends with the response to the last one, by induction on the
words before it. -/
theorem runSteps_commands (ws : List CommandWord) (w : CommandWord) (s : State)
    (h : s.inputs = ws.map Input.command ++ [Input.command w]) :
    ∃ t, runSteps (ws.length + 1) s.drive = .next t ∧
      t.view = Reference.view s.params.legacyFallback w.toNat ∧ t.params = s.params := by
  induction ws generalizing s with
  | nil =>
    obtain ⟨u, hu, -, hparams, hview⟩ := step_drive_of_command h
    exact ⟨u.drive, runSteps_succ hu 0, (State.view_drive u).trans hview, (State.drive_params u).trans hparams⟩
  | cons w₀ ws ih =>
    obtain ⟨u, hu, hinputs, hparams, -⟩ := step_drive_of_command h
    obtain ⟨t, ht, hview, htparams⟩ := ih u hinputs
    rw [hparams] at hview htparams
    exact ⟨t, (runSteps_succ hu _).trans ht, hview, htparams⟩

end Machine

open Machine

/-- Settles O21: the first step only puts the first word on the pins. -/
theorem lastCommandDecidesTheResponse : Obligations.LastCommandDecidesTheResponse := by
  intro ws w s hv hr hrd h
  obtain ⟨t, ht, hview, hparams⟩ := runSteps_commands ws w s h
  exact ⟨t, (runSteps_succ (step_idle (readFault_of_rd_none hrd) hv hr) _).trans ht, hview, hparams⟩

end Sys2Proof
end

section
/-! PROOFS. Each command's response on legal and on illegal operands, and its frame (10_state.md R25,
40_config_encoder.md R103, R110, R111, 41_response_decoder.md R140, 42_voltage_scaler.md R183, R184): the settlement of
O20, O24, O25, O26, O29, O30, O32, O34, O37, O49 and O50. -/

namespace Sys2Proof

namespace Machine

/-- A command's answer from the ports of its response. -/
theorem exec_of_view {i : Instr} {s : State} {v : PortView} (h : Response.view (responseOf s.params i) = v) :
    exec i s = .next (s.withPorts v) := by
  rw [exec_withPorts, h]

/-! GAINF and RESB (R110, R111). -/

theorem gainfResponse_legal {code : Byte} (h : code.toNat ≤ 3) :
    gainfResponse code = .ok { byte := some (BitVec.ofNat 8 (2 ^ code.toNat)) } := by
  rw [gainfResponse, if_neg (by omega), Nat.one_shiftLeft]

theorem resbResponse_legal {code : Byte} (h : code.toNat ≤ 3) :
    resbResponse code = .ok { byte := some (BitVec.ofNat 8 (12 + 2 * code.toNat)) } := by
  rw [resbResponse, if_neg (by omega)]

theorem gainfResponse_illegal {code : Byte} (h : 3 < code.toNat) :
    gainfResponse code = .error (.configurationError .code) := if_pos h

theorem resbResponse_illegal {code : Byte} (h : 3 < code.toNat) :
    resbResponse code = .error (.configurationError .code) := if_pos h

/-! The faults of DECODE, SCALE and CONVERT in their order (R140, R183, R184, R224). -/

theorem isResolution_of_legal {res : Byte} (h : Reference.legalRes res.toNat) : isResolution res = true :=
  (isResolution_iff_legalRes res).2 h

theorem isResolution_of_illegal {res : Byte} (h : ¬ Reference.legalRes res.toNat) : isResolution res = false :=
  Bool.eq_false_iff.2 (mt (isResolution_iff_legalRes res).1 h)

theorem isGain_of_legal {gain : Byte} (h : Reference.legalGain gain.toNat) : isGain gain = true :=
  (isGain_iff_legalGain gain).2 h

theorem isGain_of_illegal {gain : Byte} (h : ¬ Reference.legalGain gain.toNat) : isGain gain = false :=
  Bool.eq_false_iff.2 (mt (isGain_iff_legalGain gain).1 h)

theorem decodeResponse_illegalLength {nb res : Byte} (hres : isResolution res = true)
    (hnb : nb.toNat ≠ numDataBytes res) (raw : Raw) :
    decodeResponse nb res raw = .error (.configurationError .nbytes) := by
  simp [decodeResponse, hres, hnb]

theorem scaleResponse_illegalResolution {res : Byte} (h : isResolution res = false) (gain : Byte) (count : Count) :
    scaleResponse gain res count = .error (.configurationError .resolution) := by
  simp [scaleResponse, h]

theorem scaleResponse_illegalGain {gain res : Byte} (hres : isResolution res = true) (hgain : isGain gain = false)
    (count : Count) : scaleResponse gain res count = .error (.configurationError .gain) := by
  simp [scaleResponse, hres, hgain]

theorem convertResponse_illegalResolution {res : Byte} (h : isResolution res = false) (gain : Byte) (raw : Raw) :
    convertResponse gain res raw = .error (.configurationError .resolution) := by
  simp [convertResponse, h]

theorem convertResponse_illegalGain {gain res : Byte} (hres : isResolution res = true) (hgain : isGain gain = false)
    (raw : Raw) : convertResponse gain res raw = .error (.configurationError .gain) := by
  simp [convertResponse, hres, hgain]

/-! The completions of DECODE and CONVERT against the reference (R141 to R145, R184). -/

theorem decodeResponse_reference {nb res : Byte} (hres : Reference.legalRes res.toNat)
    (hnb : nb.toNat = Reference.payload res.toNat) (raw : Raw) : decodeResponse nb res raw =
      .ok { int := some (Reference.intPort res.toNat raw), snap := some (Reference.snapPort res.toNat raw) } := by
  rw [decodeResponse_legal (isResolution_of_legal hres) (hnb.trans (numDataBytes_eq_payload res).symm), decodeCore_adj,
    decodeCore_snap, Reference.intPort]

theorem convertResponse_reference {gain res : Byte} (hres : Reference.legalRes res.toNat)
    (hgain : Reference.legalGain gain.toNat) (raw : Raw) : convertResponse gain res raw =
      .ok { int := some (Reference.intPort res.toNat raw), snap := some (Reference.snapPort res.toNat raw),
            f64 := some (Reference.voltPort gain res raw) } := by
  rw [convertResponse_legal (isResolution_of_legal hres) (isGain_of_legal hgain), decodeCore_adj, decodeCore_snap,
    Reference.intPort, Reference.voltPort]

/-- On a legal triple the reference's rate code and gain code are the operands' own (R71, R72). -/
theorem configByte_of_legal {res gain : Nat} (hres : Reference.legalRes res) (hgain : Reference.legalGain gain)
    (ch : Nat) : Reference.configByte ch res gain = 128 + (ch - 1) * 32 + (res - 12) / 2 * 4 + Nat.log2 gain := by
  rw [Reference.configByte, Reference.rate, if_pos (show _ ∨ _ from hres), Reference.gainLog,
    if_pos (show _ ∨ _ from hgain)]

theorem payload_port (res : Nat) : BitVec.ofNat 32 (Reference.payload res) = if res = 18 then 3 else 2 := by
  unfold Reference.payload
  split <;> rfl

end Machine

open Machine

/-- Settles O29: GAINF checks the code first, and shifting one by a legal code is a power of two. -/
theorem gainfMapsCodes : Obligations.GainfMapsCodes := by
  refine fun code s => ⟨fun h => exec_of_view ?_, fun h => exec_of_view ?_⟩
  · rw [responseOf, gainfResponse_legal h]; rfl
  · rw [responseOf, gainfResponse_illegal h]; rfl

/-- Settles O30: RESB is affine on the legal codes and checks the code first. -/
theorem resbMapsCodes : Obligations.ResbMapsCodes := by
  refine fun code s => ⟨fun h => exec_of_view ?_, fun h => exec_of_view ?_⟩
  · rw [responseOf, resbResponse_legal h]; rfl
  · rw [responseOf, resbResponse_illegal h]; rfl

/-- Settles O34: DECODE checks the resolution first and the payload length against it. -/
theorem decodeFaultsInOrder : Obligations.DecodeFaultsInOrder := by
  refine fun nb res raw s => ⟨fun hres => exec_of_view ?_, fun hres hnb => exec_of_view ?_⟩
  · rw [responseOf, decodeResponse_illegalResolution (isResolution_of_illegal hres)]; rfl
  · rw [← numDataBytes_eq_payload] at hnb
    rw [responseOf, decodeResponse_illegalLength (isResolution_of_legal hres) hnb]; rfl

/-- Settles O49: SCALE and CONVERT check the resolution first and then the gain. -/
theorem scalingFaultsInOrder : Obligations.ScalingFaultsInOrder := by
  refine fun gain res count raw s => ⟨fun hres => ?_, fun hres hgain => ?_⟩
  · have hres := isResolution_of_illegal hres
    exact ⟨exec_of_view (by rw [responseOf, scaleResponse_illegalResolution hres]; rfl),
      exec_of_view (by rw [responseOf, convertResponse_illegalResolution hres]; rfl)⟩
  · have hres := isResolution_of_legal hres
    have hgain := isGain_of_illegal hgain
    exact ⟨exec_of_view (by rw [responseOf, scaleResponse_illegalGain hres hgain]; rfl),
      exec_of_view (by rw [responseOf, convertResponse_illegalGain hres hgain]; rfl)⟩

/-- Settles O24: a legal operand is sent as its own code under both values of LEGACY_FALLBACK. -/
theorem encfgPacksLegalOperands : Obligations.EncfgPacksLegalOperands := by
  intro ch res gain s h1 h4 hres hgain
  have hch : isChannel ch = true := (isChannel_iff_range ch).2 (by omega)
  refine exec_of_view ?_
  rw [responseOf, encfgResponse_completes hch (.inl hres) (.inl hgain), configByte_of_legal hres hgain, payload_port]
  rfl

/-- Settles O25: ENCFG's checks in the order of R224. -/
theorem encfgFaultsInOrder : Obligations.EncfgFaultsInOrder := by
  refine fun ch res gain s => ⟨fun hch => exec_of_view ?_, fun h1 h4 hp => ?_⟩
  · rw [responseOf, encfgResponse_illegalChannel (Bool.eq_false_iff.2 fun h => (isChannel_iff_range ch).1 h hch)]
    rfl
  · have hch : isChannel ch = true := (isChannel_iff_range ch).2 (by omega)
    refine ⟨fun hres => exec_of_view ?_, fun hres hgain => exec_of_view ?_⟩
    · rw [responseOf, encfgResponse_illegalResolution hp hch hres]; rfl
    · rw [responseOf, encfgResponse_illegalGain hp hch hres hgain]; rfl

/-- Settles O26: with the fallback every operand is sent, an out-of-set one as code 00. -/
theorem encfgLegacyFallback : Obligations.EncfgLegacyFallback := by
  intro ch res gain s h1 h4 hp
  have hch : isChannel ch = true := (isChannel_iff_range ch).2 (by omega)
  refine exec_of_view ?_
  rw [responseOf, encfgResponse_completes hch (.inr hp) (.inr hp), payload_port]
  rfl

/-- Settles O32: the decoder core is the reference's arithmetic, and its count fits the port. -/
theorem decodeDeliversCountAndSnapshot : Obligations.DecodeDeliversCountAndSnapshot := by
  refine fun nb res raw s hres hnb => ⟨exec_of_view ?_, toInt_ofInt_adjusted hres raw⟩
  rw [responseOf, decodeResponse_reference hres hnb]
  rfl

/-- Settles O50: CONVERT delivers what the decoder core computes, and its count scaled. -/
theorem convertDecodesAndScales : Obligations.ConvertDecodesAndScales := by
  refine fun gain res raw s hres hgain => exec_of_view ?_
  rw [responseOf, convertResponse_reference hres hgain]
  rfl

namespace Machine

/-- With a 2-byte payload the working buffer has no place for `raw[3]` (R142). -/
theorem decodeCore_fourthByte {nb : Nat} (h : nb ≠ 3) (res x x' b0 b1 b2 : Byte) :
    decodeCore ⟨b0, b1, b2, x⟩ nb res = decodeCore ⟨b0, b1, b2, x'⟩ nb res := by
  simp [decodeCore, workingBuffer, h]

theorem numDataBytes_ne_three {res : Byte} (h : res ≠ 18) : numDataBytes res ≠ 3 := by
  rw [numDataBytes, if_neg h]
  decide

end Machine

/-- Settles O37: DECODE and CONVERT see the raw response through the decoder core alone, and it has no `raw[3]` when the
payload length is the resolution's. -/
theorem fourthByteIsIgnoredInTwoByteMode : Obligations.FourthByteIsIgnoredInTwoByteMode := by
  intro res gain nb x x' b0 b1 b2 s hres
  have hcore := decodeCore_fourthByte (numDataBytes_ne_three hres) res x x' b0 b1 b2
  simp only [exec_eq_answer, responseOf]
  constructor
  · by_cases hnb : nb.toNat = numDataBytes res
    · rw [decodeResponse, decodeResponse, hnb, hcore]
    · rw [decodeResponse, decodeResponse, if_neg hnb, if_neg hnb]
  · rw [convertResponse, convertResponse, hcore]

/-- Settles O20: ENCFG alone has the parameters among its response's arguments. -/
theorem legacyFallbackConcernsEncfgAlone : Obligations.LegacyFallbackConcernsEncfgAlone := by
  intro i s b hi
  refine ⟨_, _, exec_withPorts i s, exec_withPorts i _, ?_⟩
  cases i with
  | encfg ch res gain => exact absurd rfl (hi ch res gain)
  | decode nb res raw => rfl
  | scale gain res count => rfl
  | convert gain res raw => rfl
  | gainf code => rfl
  | resb code => rfl

end Sys2Proof
end

section
/-! PROOFS. The rounding of the binary64 primitives is IEEE 754's (00_scope.md R13; log entry 7): to nearest with ties
to even up to the largest finite number, and past it that number or infinity. The settlement of O39 to O41. -/

namespace Sys2Proof.Machine

/-- The number that an integer stands for, from its sign bit and its magnitude. -/
theorem signQ_natAbs (i : Int) : signQ (decide (i < 0)) * (i.natAbs : ℚ) = i := by
  rcases lt_or_ge i 0 with h | h
  · rw [signQ, decide_eq_true h, if_pos rfl, Nat.cast_natAbs, abs_of_neg h]
    push_cast
    ring
  · rw [signQ, decide_eq_false (not_lt.2 h), if_neg (by decide), Nat.cast_natAbs, abs_of_nonneg h, one_mul]

theorem signQ_xor (s t : Bool) : signQ (s ^^ t) = signQ s * signQ t := by
  cases s <;> cases t <;> norm_num [signQ]

theorem signQ_div (s t : Bool) : signQ s / signQ t = signQ (s ^^ t) := by
  cases s <;> cases t <;> norm_num [signQ]

theorem quot_nonneg (n d : Nat) (e : Int) : 0 ≤ quot n d e := by unfold quot; positivity

theorem abs_signQ_mul_quot (neg : Bool) (n d : Nat) (e : Int) : |signQ neg * quot n d e| = quot n d e := by
  rw [abs_mul, abs_signQ, one_mul, abs_of_nonneg (quot_nonneg n d e)]

/-! The fields of a pattern. -/

/-- The sign of a finite pattern is its bit 63. -/
theorem msb_of_finite {a : F64} {s : Bool} {m : Nat} {e : Int} (h : unpackF64 a = .finite s m e) : a.msb = s := by
  simp only [unpackF64] at h
  split_ifs at h <;> exact (Binary64.finite.inj h).1

theorem exp_of_finite {a : F64} {s : Bool} {m : Nat} {e : Int} (h : unpackF64 a = .finite s m e) : -1074 ≤ e := by
  simp only [unpackF64] at h
  split_ifs at h <;> obtain ⟨-, -, rfl⟩ := Binary64.finite.inj h <;> omega

/-- A finite number is a multiple of every power of two up to its last place. -/
theorem finite_on_grid (neg : Bool) (m : Nat) {e u : Int} (h : u ≤ e) :
    ∃ k : Int, signQ neg * m * 2 ^ e = k * 2 ^ u := by
  obtain ⟨j, rfl⟩ := Int.le.dest h
  refine ⟨(if neg then -1 else 1) * m * 2 ^ j, ?_⟩
  rw [signQ_eq_intCast, zpow_add₀ two_ne_zero, zpow_natCast]
  push_cast
  ring

/-- All finite numbers are multiples of the smallest subnormal number. -/
theorem f64Value_on_subnormal_grid {z : F64} {v : ℚ} (h : f64Value z = some v) :
    ∃ k : Int, v = k * 2 ^ (-1074 : Int) := by
  obtain ⟨neg, m, e, hz, rfl⟩ := unpackF64_of_value h
  exact finite_on_grid neg m (exp_of_finite hz)

/-- A product of finite numbers, as a sign and a magnitude. -/
theorem mul_value_eq {s t : Bool} {m n : Nat} {e g : Int} :
    signQ s * m * 2 ^ e * (signQ t * n * 2 ^ g) = signQ (s ^^ t) * quot (m * n) 1 (e + g) := by
  rw [signQ_xor, quot_one, zpow_add₀ two_ne_zero]
  push_cast
  ring

/-- A quotient of finite numbers, as a sign and a magnitude. -/
theorem div_value_eq {s t : Bool} {m n : Nat} {e g : Int} :
    signQ s * m * 2 ^ e / (signQ t * n * 2 ^ g) = signQ (s ^^ t) * quot m n (e - g) := by
  rw [← signQ_div, quot, zpow_sub₀ two_ne_zero, mul_div_mul_comm, mul_div_mul_comm, mul_assoc]

/-! The magnitude that rounding computes, apart from its sign. -/

/-- Bits 62:0 of `roundF64`. -/
def roundMag (n d : Nat) (e : Int) : Nat :=
  if n = 0 then 0 else min ((ulpExp n d e + 1074).toNat * 2 ^ 52 + roundSig n d e (ulpExp n d e)) infMag

theorem roundF64_eq_signed (neg : Bool) (n d : Nat) (e : Int) : roundF64 neg n d e = signed neg (roundMag n d e) := by
  rcases Nat.eq_zero_or_pos n with rfl | hn
  · rfl
  · rw [roundF64_pos neg d e hn, roundMag, if_neg hn.ne']

theorem roundMag_le (n d : Nat) (e : Int) : roundMag n d e ≤ infMag := by
  rw [roundMag]
  split
  · exact Nat.zero_le _
  · exact min_le_right _ _

/-- The sign of a rounded number is the one asked for. -/
theorem roundF64_msb (neg : Bool) (n d : Nat) (e : Int) : (roundF64 neg n d e).msb = neg := by
  rw [roundF64_eq_signed]
  exact signed_msb neg ((roundMag_le n d e).trans_lt (by decide))

/-! Rounding to the nearest multiple of the last place. -/

/-- A rounded significand half a last place away is even. -/
theorem roundSig_tie {n d : Nat} (hd : 0 < d) {e u : Int}
    (h : |(roundSig n d e u : ℚ) * 2 ^ u - quot n d e| = 2 ^ u / 2) : roundSig n d e u % 2 = 0 := by
  rw [← roundSig_quot n d hd e u, ← sub_mul, abs_mul, abs_of_pos (show (0 : ℚ) < 2 ^ u by positivity),
    show (2 : ℚ) ^ u / 2 = 2⁻¹ * 2 ^ u by ring] at h
  have habs := mul_right_cancel₀ (by positivity : (2 : ℚ) ^ u ≠ 0) h
  have hD : 0 < d * 2 ^ (u - e).toNat := by positivity
  refine roundDiv_tie _ _ hD ?_
  unfold roundSig at habs
  generalize d * 2 ^ (u - e).toNat = D at *
  generalize n * 2 ^ (e - u).toNat = N at *
  have hDq : (D : ℚ) ≠ 0 := by exact_mod_cast hD.ne'
  rcases eq_or_eq_neg_of_abs_eq habs with h | h
  · right
    rw [sub_eq_iff_eq_add] at h
    have : (2 * roundDiv N D * D : ℚ) = 2 * N + D := by rw [h]; field_simp; ring
    exact_mod_cast this
  · left
    rw [sub_eq_iff_eq_add] at h
    have : (2 * N : ℚ) = (2 * roundDiv N D + 1) * D := by rw [h]; field_simp; ring
    exact_mod_cast this

/-- A multiple of `p` at most half of `p` away from `x` leaves the others at least that far away. -/
theorem other_multiple_far {x p : ℚ} {m k : Int} (hp : 0 < p) (hm : |m * p - x| ≤ p / 2) (hk : k ≠ m) :
    p / 2 ≤ |k * p - x| := by
  have hgap : p ≤ |k * p - m * p| := by
    rw [← sub_mul, abs_mul, abs_of_pos hp]
    have : (1 : ℚ) ≤ |(k : ℚ) - m| := by exact_mod_cast Int.one_le_abs (sub_ne_zero.2 hk)
    nlinarith
  have htri := abs_sub_le (k * p) x (m * p)
  rw [abs_sub_comm x] at htri
  linarith

/-- The last place `2 ^ u` of a number: it is that of the subnormal numbers, or the number's binade begins at
`2 ^ 52 * 2 ^ u`. -/
theorem ulpExp_binade {n d : Nat} {e : Int} (hn : 0 < n) (hd : 0 < d) :
    ulpExp n d e = -1074 ∨ ((2 ^ 52 : Int) : ℚ) * 2 ^ ulpExp n d e ≤ quot n d e := by
  obtain ⟨k, hk, -, hu⟩ := ulpExp_spec (e := e) hn hd
  rcases le_or_gt (k - 52) (-1074) with h | h
  · exact .inl (hu.trans (max_eq_right h))
  · right
    rwa [hu, max_eq_left h.le, Int.cast_pow, Int.cast_ofNat, ← zpow_natCast, ← zpow_add₀ two_ne_zero,
      show ((52 : Nat) : Int) + (k - 52) = k by push_cast; ring]

/-- The finite numbers that are not multiples of a number's last place lie below its binade. -/
theorem on_ulp_grid_or_below_binade {n d : Nat} {e : Int} (hn : 0 < n) (hd : 0 < d) {z : F64} {v : ℚ}
    (hz : f64Value z = some v) : (∃ k : Int, v = k * 2 ^ ulpExp n d e) ∨
      v < ((2 ^ 52 : Int) : ℚ) * 2 ^ ulpExp n d e ∧ ((2 ^ 52 : Int) : ℚ) * 2 ^ ulpExp n d e ≤ quot n d e := by
  rcases ulpExp_binade (e := e) hn hd with hu | hlow
  · rw [hu]
    exact .inl (f64Value_on_subnormal_grid hz)
  · rcases f64Value_small_or_on_grid hz (ulpExp n d e) with hsmall | hgrid
    · exact .inr ⟨by exact_mod_cast lt_of_abs_lt hsmall, hlow⟩
    · exact .inl hgrid

/-- The error of the rounded number is at most half a last place, so that no other multiple of the last place is nearer;
and the first number of the binade is nearer than what lies below it. -/
theorem roundSig_nearest {n d : Nat} {e : Int} (hn : 0 < n) (hd : 0 < d) {z : F64} {v : ℚ}
    (hz : f64Value z = some v) (hv : v ≠ roundSig n d e (ulpExp n d e) * 2 ^ ulpExp n d e) :
    |(roundSig n d e (ulpExp n d e) : ℚ) * 2 ^ ulpExp n d e - quot n d e| ≤ |v - quot n d e| ∧
      (|v - quot n d e| = |(roundSig n d e (ulpExp n d e) : ℚ) * 2 ^ ulpExp n d e - quot n d e| →
        roundSig n d e (ulpExp n d e) % 2 = 0) := by
  have hnear := roundSig_near n d hd e (ulpExp n d e)
  have hcases := on_ulp_grid_or_below_binade (e := e) hn hd hz
  have htie := roundSig_tie (n := n) hd (e := e) (u := ulpExp n d e)
  generalize ulpExp n d e = u at *
  generalize roundSig n d e u = m at *
  have hmultiple (k : Int) (hk : (k : ℚ) * 2 ^ u ≠ m * 2 ^ u) : 2 ^ u / 2 ≤ |k * 2 ^ u - quot n d e| :=
    other_multiple_far (m := m) (by positivity) (by exact_mod_cast hnear) fun h => hk (by rw [h, Int.cast_natCast])
  rcases hcases with ⟨k, rfl⟩ | ⟨hbelow, hlow⟩
  · have hfar := hmultiple k hv
    exact ⟨hnear.trans hfar, fun h => htie (le_antisymm hnear (h ▸ hfar))⟩
  · have hfirst : |(m : ℚ) * 2 ^ u - quot n d e| ≤ |((2 ^ 52 : Int) : ℚ) * 2 ^ u - quot n d e| := by
      by_cases hm : ((2 ^ 52 : Int) : ℚ) * 2 ^ u = m * 2 ^ u
      · rw [hm]
      · exact hnear.trans (hmultiple _ hm)
    have hfarther : |((2 ^ 52 : Int) : ℚ) * 2 ^ u - quot n d e| < |v - quot n d e| := by
      rw [abs_of_nonpos (by linarith), abs_of_nonpos (by linarith)]
      linarith
    exact ⟨(hfirst.trans_lt hfarther).le, fun h => absurd h (hfirst.trans_lt hfarther).ne'⟩

/-! Overflow: the rounded number against the largest finite one. -/

theorem maxFinite_eq : Reference.maxFinite = (2 ^ 53 - 1) * 2 ^ (971 : Int) := rfl

theorem overflowBound_eq : Reference.overflowBound = (2 ^ 53 - 1 + 1 / 2) * 2 ^ (971 : Int) := by
  rw [Reference.overflowBound, show (971 : Int) = (970 : Nat) + 1 by norm_num, zpow_add_one₀ two_ne_zero, zpow_natCast]
  generalize (2 : ℚ) ^ 970 = p
  ring

theorem overflowBound_lt : Reference.overflowBound < 2 ^ (1024 : Int) := by
  rw [overflowBound_eq, show (1024 : Int) = 53 + 971 by norm_num, zpow_add₀ two_ne_zero]
  gcongr
  norm_num

theorem maxFinite_lt_overflowBound : Reference.maxFinite < Reference.overflowBound := by
  rw [overflowBound_eq, maxFinite_eq]
  gcongr
  norm_num

theorem le_maxFinite : 2 ^ (1023 : Int) ≤ Reference.maxFinite := by
  rw [maxFinite_eq, show (1023 : Int) = 52 + 971 by norm_num, zpow_add₀ two_ne_zero]
  gcongr
  norm_num

/-- Below the largest finite number's binade's end the last place is `2 ^ 971` at most. -/
theorem ulpExp_le_of_lt {n d : Nat} {e : Int} (hn : 0 < n) (hd : 0 < d) (h : quot n d e < 2 ^ (1024 : Int)) :
    ulpExp n d e ≤ 971 := by
  obtain ⟨k, hk, -, hu⟩ := ulpExp_spec (e := e) hn hd
  have := (zpow_lt_zpow_iff_right₀ (one_lt_two (α := ℚ))).1 (hk.trans_lt h)
  omega

/-- From that binade's beginning on the last place is `2 ^ 971` at least. -/
theorem ulpExp_ge_of_le {n d : Nat} {e : Int} (hn : 0 < n) (hd : 0 < d) (h : 2 ^ (1023 : Int) ≤ quot n d e) :
    971 ≤ ulpExp n d e := by
  obtain ⟨k, -, hk, hu⟩ := ulpExp_spec (e := e) hn hd
  have := (zpow_lt_zpow_iff_right₀ (one_lt_two (α := ℚ))).1 (h.trans_lt hk)
  omega

theorem roundSig_le_of_lt {n d : Nat} (hd : 0 < d) {e u : Int} {b : Nat} (h : quot n d e < (b + 1 / 2) * 2 ^ u) :
    roundSig n d e u ≤ b := by
  have hnear := (abs_le.1 (roundSig_near n d hd e u)).2
  have hlt : (roundSig n d e u : ℚ) < (b + 1 : Nat) := by
    refine lt_of_mul_lt_mul_right (a := (2 : ℚ) ^ u) ?_ (by positivity)
    push_cast
    linarith
  exact Nat.lt_succ_iff.1 (by exact_mod_cast hlt)

theorem roundSig_ge_of_lt {n d : Nat} (hd : 0 < d) {e u : Int} {b : Nat} (h : (b - 1 / 2) * 2 ^ u < quot n d e) :
    b ≤ roundSig n d e u := by
  have hnear := (abs_le.1 (roundSig_near n d hd e u)).1
  have hlt : (b : ℚ) < (roundSig n d e u + 1 : Nat) := by
    refine lt_of_mul_lt_mul_right (a := (2 : ℚ) ^ u) ?_ (by positivity)
    push_cast
    linarith
  exact Nat.lt_succ_iff.1 (by exact_mod_cast hlt)

/-- Up to the largest finite number rounding does not overflow. -/
theorem round_lt_infMag {n d : Nat} {e : Int} (hn : 0 < n) (hd : 0 < d) (h : quot n d e ≤ Reference.maxFinite) :
    (ulpExp n d e + 1074).toNat * 2 ^ 52 + roundSig n d e (ulpExp n d e) < infMag := by
  have hbound := h.trans_lt maxFinite_lt_overflowBound
  have hu := ulpExp_le_of_lt hn hd (hbound.trans overflowBound_lt)
  have hsig := roundSig_le (e := e) hn hd
  rcases hu.lt_or_eq with hlt | heq
  · rw [infMag]
    omega
  · have hsig : roundSig n d e (ulpExp n d e) ≤ 2 ^ 53 - 1 := by
      rw [overflowBound_eq] at hbound
      rw [heq]
      exact roundSig_le_of_lt hd (by exact_mod_cast hbound)
    rw [infMag]
    omega

/-- Between the largest finite number and the midpoint to the next power of two, the largest finite number. -/
theorem roundMag_largest {n d : Nat} {e : Int} (hn : 0 < n) (hd : 0 < d) (h1 : Reference.maxFinite < quot n d e)
    (h2 : quot n d e < Reference.overflowBound) : roundMag n d e = infMag - 1 := by
  have hu : ulpExp n d e = 971 :=
    le_antisymm (ulpExp_le_of_lt hn hd (h2.trans overflowBound_lt)) (ulpExp_ge_of_le hn hd (le_maxFinite.trans h1.le))
  rw [overflowBound_eq] at h2
  have hle : roundSig n d e 971 ≤ 2 ^ 53 - 1 := roundSig_le_of_lt hd (by exact_mod_cast h2)
  have hge : 2 ^ 53 - 1 ≤ roundSig n d e 971 := by
    refine roundSig_ge_of_lt hd (lt_trans ?_ h1)
    exact mul_lt_mul_of_pos_right (by norm_num) (by positivity)
  rw [roundMag, if_neg hn.ne', hu, infMag]
  omega

/-- From that midpoint on, infinity: the midpoint itself is a tie that the even side wins. -/
theorem roundMag_inf {n d : Nat} {e : Int} (hn : 0 < n) (hd : 0 < d) (h : Reference.overflowBound ≤ quot n d e) :
    roundMag n d e = infMag := by
  have hu := ulpExp_ge_of_le hn hd (le_maxFinite.trans (maxFinite_lt_overflowBound.le.trans h))
  rw [roundMag, if_neg hn.ne']
  refine min_eq_right ?_
  rcases hu.lt_or_eq with hlt | heq
  · have hsig := (roundSig_ge (e := e) hn hd).resolve_right (by omega)
    rw [infMag]
    omega
  · rw [← heq]
    rw [overflowBound_eq] at h
    have hge : 2 ^ 53 - 1 ≤ roundSig n d e 971 := by
      refine roundSig_ge_of_lt hd (lt_of_lt_of_le ?_ h)
      exact mul_lt_mul_of_pos_right (by norm_num) (by positivity)
    have hne : roundSig n d e 971 ≠ 2 ^ 53 - 1 := by
      intro hodd
      have htie : roundSig n d e 971 % 2 = 0 := by
        refine roundSig_tie hd (le_antisymm (roundSig_near n d hd e 971) ?_)
        rw [hodd, abs_sub_comm]
        refine le_trans ?_ (le_abs_self _)
        generalize (2 : ℚ) ^ (971 : Int) = p at h ⊢
        push_cast
        linarith
      omega
    rw [infMag]
    omega

/-! The sign. -/

/-- The pattern with bit 63 inverted. -/
def flipSign (x : F64) : F64 := x ^^^ 0x8000000000000000#64

theorem flipSign_flipSign (x : F64) : flipSign (flipSign x) = x := by
  rw [flipSign, flipSign, BitVec.xor_assoc, BitVec.xor_self, BitVec.xor_zero]

/-- Inverting bit 63 leaves the fields below it. -/
theorem extract_flipSign (x : F64) : (flipSign x).extractLsb 62 52 = x.extractLsb 62 52 ∧
    (flipSign x).extractLsb 51 0 = x.extractLsb 51 0 ∧ (flipSign x).getLsbD 0 = x.getLsbD 0 := by
  refine ⟨?_, ?_, ?_⟩ <;> simp [flipSign, BitVec.extractLsb, BitVec.extractLsb'_xor]

theorem msb_flipSign (x : F64) : (flipSign x).msb = !x.msb := by
  rw [flipSign, BitVec.msb_xor, show (0x8000000000000000#64).msb = true by decide, Bool.xor_true]

theorem unpackF64_flipSign {x : F64} {s : Bool} {m : Nat} {e : Int} (h : unpackF64 x = .finite s m e) :
    unpackF64 (flipSign x) = .finite (!s) m e := by
  obtain ⟨he, hf, -⟩ := extract_flipSign x
  simp only [unpackF64] at h ⊢
  rw [he, hf, msb_flipSign]
  split_ifs at h ⊢ <;> obtain ⟨rfl, rfl, rfl⟩ := Binary64.finite.inj h <;> rfl

theorem f64Value_flipSign {x : F64} {v : ℚ} (h : f64Value x = some v) : f64Value (flipSign x) = some (-v) := by
  obtain ⟨s, m, e, hx, rfl⟩ := unpackF64_of_value h
  rw [f64Value_finite (unpackF64_flipSign hx)]
  cases s <;> simp [signQ]

theorem signed_true (mag : Nat) : signed true mag = flipSign (signed false mag) := by
  have hbit (i : Nat) : (0x8000000000000000#64).getLsbD i = decide (63 = i) := by
    rw [show (0x8000000000000000#64) = BitVec.ofNat 64 (2 ^ 63) by decide, BitVec.getLsbD_ofNat, Nat.testBit_two_pow]
    simp only [Bool.and_eq_right_iff_imp, decide_eq_true_eq]
    omega
  apply BitVec.eq_of_getLsbD_eq
  intro i hi
  rw [flipSign, BitVec.getLsbD_xor, hbit, signed, signed, BitVec.getLsbD_ofNat, BitVec.getLsbD_ofNat, if_pos rfl,
    if_neg (by decide), decide_eq_true hi, Bool.true_and, Bool.true_and]
  rcases Nat.lt_or_eq_of_le (Nat.le_of_lt_succ hi) with h | rfl
  · rw [Nat.testBit_two_pow_add_gt h, decide_eq_false h.ne', Bool.xor_false]
  · rw [Nat.testBit_two_pow_add_eq, decide_eq_true rfl, Bool.xor_true]

theorem signed_not (neg : Bool) (mag : Nat) : signed (!neg) mag = flipSign (signed neg mag) := by
  cases neg with
  | false => exact signed_true mag
  | true => rw [signed_true, flipSign_flipSign, Bool.not_true]

theorem roundF64_not (neg : Bool) (n d : Nat) (e : Int) :
    roundF64 (!neg) n d e = flipSign (roundF64 neg n d e) := by
  rw [roundF64_eq_signed, roundF64_eq_signed, signed_not]

/-- The nearest number to the opposite number is the opposite number's. -/
theorem nearestEven_neg {x : ℚ} {y : F64} (h : Reference.NearestEven x y) :
    Reference.NearestEven (-x) (flipSign y) := by
  obtain ⟨v, hy, hnear, htie⟩ := h
  have hdist (a : ℚ) : |a - -x| = |-a - x| := by rw [← abs_neg]; congr 1; ring
  refine ⟨-v, f64Value_flipSign hy, fun z vz hz => ?_, fun z vz hz hne hdists => ?_⟩
  · rw [hdist, hdist, neg_neg]
    exact hnear _ _ (f64Value_flipSign hz)
  · rw [hdist, hdist, neg_neg] at hdists
    rw [(extract_flipSign y).2.2]
    exact htie _ _ (f64Value_flipSign hz) (fun h => hne (by rw [← h, neg_neg])) hdists

/-! Correct rounding. -/

theorem signed_even (neg : Bool) {mag : Nat} (h : mag % 2 = 0) : (signed neg mag).getLsbD 0 = false := by
  rw [signed, BitVec.getLsbD_ofNat, Nat.testBit_zero]
  cases neg <;> simp <;> omega

/-- A positive number that is not too large is rounded to nearest with ties to even. -/
theorem roundF64_nearestEven_pos {n d : Nat} {e : Int} (hn : 0 < n) (hd : 0 < d)
    (h : quot n d e ≤ Reference.maxFinite) : Reference.NearestEven (quot n d e) (roundF64 false n d e) := by
  have hmax := round_lt_infMag hn hd h
  have hval := roundF64_value false hn hd hmax
  rw [signQ, if_neg (by decide), one_mul] at hval
  refine ⟨_, hval, fun z v hz => ?_, fun z v hz hv htie => ?_⟩
  · by_cases hv : v = roundSig n d e (ulpExp n d e) * 2 ^ ulpExp n d e
    · rw [hv]
    · exact (roundSig_nearest hn hd hz hv).1
  · have heven := (roundSig_nearest hn hd hz hv).2 htie
    rw [roundF64_pos false d e hn, min_eq_left hmax.le]
    exact signed_even false (by omega)

theorem unpackF64_zero : unpackF64 0 = .finite false 0 (-1074) := by decide

theorem f64Value_zero : f64Value 0 = some 0 := by
  rw [f64Value_finite unpackF64_zero, Nat.cast_zero, mul_zero, zero_mul]

theorem roundF64_zero (d : Nat) (e : Int) : roundF64 false 0 d e = 0 := rfl

/-- Zero is exact. -/
theorem roundF64_nearestEven_zero (d : Nat) (e : Int) : Reference.NearestEven 0 (roundF64 false 0 d e) := by
  refine ⟨0, f64Value_zero, fun z v hz => ?_, fun z v hz hv htie => ?_⟩
  · rw [sub_self, abs_zero]
    exact abs_nonneg _
  · rw [sub_self, abs_zero, sub_zero, abs_eq_zero] at htie
    exact absurd htie hv

/-- Every number up to the largest finite one is rounded to nearest with ties to even. -/
theorem roundF64_nearestEven (neg : Bool) {n d : Nat} {e : Int} (hd : 0 < d)
    (h : quot n d e ≤ Reference.maxFinite) :
    Reference.NearestEven (signQ neg * quot n d e) (roundF64 neg n d e) := by
  have hpos : Reference.NearestEven (quot n d e) (roundF64 false n d e) := by
    rcases Nat.eq_zero_or_pos n with rfl | hn
    · rw [quot, Nat.cast_zero, zero_div, zero_mul]
      exact roundF64_nearestEven_zero d e
    · exact roundF64_nearestEven_pos hn hd h
  cases neg with
  | false => rwa [signQ, if_neg (by decide), one_mul]
  | true =>
    rw [signQ, if_pos rfl, neg_one_mul]
    exact roundF64_not false n d e ▸ nearestEven_neg hpos

/-! The operands of the primitives. -/

/-- A product of finite numbers is their magnitudes' product, rounded. -/
theorem mulRN_of_values {a b : F64} {x y : ℚ} (ha : f64Value a = some x) (hb : f64Value b = some y) :
    ∃ n e, x * y = signQ (a.msb ^^ b.msb) * quot n 1 e ∧ mulRN a b = roundF64 (a.msb ^^ b.msb) n 1 e := by
  obtain ⟨s, m, e, hfa, rfl⟩ := unpackF64_of_value ha
  obtain ⟨t, n, g, hfb, rfl⟩ := unpackF64_of_value hb
  rw [msb_of_finite hfa, msb_of_finite hfb]
  exact ⟨m * n, e + g, mul_value_eq, mulRN_finite hfa hfb⟩

/-- A quotient of finite numbers is their magnitudes' quotient, rounded. -/
theorem divRN_of_values {a b : F64} {x y : ℚ} (ha : f64Value a = some x) (hb : f64Value b = some y) (hy : y ≠ 0) :
    ∃ n d e, 0 < d ∧ x / y = signQ (a.msb ^^ b.msb) * quot n d e ∧ divRN a b = roundF64 (a.msb ^^ b.msb) n d e := by
  obtain ⟨s, m, e, hfa, rfl⟩ := unpackF64_of_value ha
  obtain ⟨t, n, g, hfb, rfl⟩ := unpackF64_of_value hb
  have hn : n ≠ 0 := by rintro rfl; simp at hy
  rw [msb_of_finite hfa, msb_of_finite hfb]
  exact ⟨m, n, e - g, Nat.pos_of_ne_zero hn, div_value_eq, divRN_finite hfa hfb hn⟩

end Sys2Proof.Machine

namespace Sys2Proof

open Machine

/-- Settles O39: an integer below 2^53 is its own significand, with the last place 1. -/
theorem integersConvertExactly : Obligations.IntegersConvertExactly := by
  intro i hi
  rw [f64, roundF64_exact _ one_pos (quot_one i.natAbs 0) hi (by norm_num) (by norm_num), signQ_natAbs, zpow_zero,
    mul_one]

/-- Settles O40: the one rounding of `mulRN` is to nearest with ties to even. -/
theorem multiplicationRoundsToNearestEven : Obligations.MultiplicationRoundsToNearestEven := by
  intro a b x y ha hb hmax
  obtain ⟨n, e, hxy, hround⟩ := mulRN_of_values ha hb
  rw [hxy, abs_signQ_mul_quot] at hmax
  rw [hxy, hround]
  exact ⟨roundF64_nearestEven _ one_pos hmax, roundF64_msb _ _ _ _⟩

/-- Settles O41: the one rounding of `divRN` is to nearest with ties to even. -/
theorem divisionRoundsToNearestEven : Obligations.DivisionRoundsToNearestEven := by
  intro a b x y ha hb hy hmax
  obtain ⟨n, d, e, hd, hxy, hround⟩ := divRN_of_values ha hb hy
  rw [hxy, abs_signQ_mul_quot] at hmax
  rw [hxy, hround]
  exact ⟨roundF64_nearestEven _ hd hmax, roundF64_msb _ _ _ _⟩

end Sys2Proof
end

section
/-! PROOFS. The binary64 primitives past the largest finite number, on infinities and on NaNs (00_scope.md R13; log
entries 7 and 8): the settlement of O42 and O43. -/

namespace Sys2Proof.Machine

/-! The patterns that the reference writes out. -/

theorem largest_eq (neg : Bool) : Reference.largest neg = signed neg (infMag - 1) := by cases neg <;> decide

theorem infinity_eq (neg : Bool) : Reference.infinity neg = signed neg infMag := by cases neg <;> decide

theorem zero_eq (neg : Bool) : Reference.zero neg = signed neg 0 := by cases neg <;> decide

theorem unpackF64_of_isInf {a : F64} (h : Reference.IsInf a) : unpackF64 a = .inf a.msb := by
  rcases h with rfl | rfl <;> decide

/-- The NaNs are the patterns that the primitives read as such. -/
theorem isNaN_iff_unpack (x : F64) : Reference.IsNaN x ↔ unpackF64 x = .nan := by
  simp only [Reference.IsNaN, unpackF64]
  split_ifs with he hf
  · exact iff_of_false (fun h => h.2 hf) nofun
  · exact iff_of_true ⟨he, hf⟩ rfl
  · exact iff_of_false (fun h => he h.1) nofun
  · exact iff_of_false (fun h => he h.1) nofun

/-- A NaN result is a NaN whatever its free bits are (log entry 8). -/
theorem isNaN_nanF64 (a b : F64) : Reference.IsNaN (nanF64 a b) := by
  constructor
  · rw [nanF64, BitVec.extractLsb, BitVec.extractLsb'_or,
      show (0x7FF8000000000000#64).extractLsb' 52 (62 - 52 + 1) = BitVec.allOnes (62 - 52 + 1) by decide,
      BitVec.or_allOnes]
    rfl
  · intro hzero
    have hquiet : (nanF64 a b).getLsbD 51 = true := by
      rw [nanF64, BitVec.getLsbD_or, show (0x7FF8000000000000#64).getLsbD 51 = true by decide, Bool.or_true]
    have hbit : ((nanF64 a b).extractLsb 51 0).getLsbD 51 = (nanF64 a b).getLsbD 51 := by
      simp
    rw [BitVec.eq_of_toNat_eq (y := 0#(51 - 0 + 1)) hzero, hquiet, BitVec.getLsbD_zero] at hbit
    cases hbit

/-! The primitives on operands that are not both finite, or with a divisor of zero. -/

theorem mulRN_inf_inf {a b : F64} {s t : Bool} (ha : unpackF64 a = .inf s) (hb : unpackF64 b = .inf t) :
    mulRN a b = signed (s ^^ t) infMag := by
  simp only [mulRN, ha, hb]

theorem mulRN_inf_finite {a b : F64} {s t : Bool} {n : Nat} {g : Int} (ha : unpackF64 a = .inf s)
    (hb : unpackF64 b = .finite t n g) (hn : n ≠ 0) :
    mulRN a b = signed (s ^^ t) infMag ∧ mulRN b a = signed (s ^^ t) infMag := by
  simp only [mulRN, ha, hb, if_neg hn, Bool.xor_comm t s, and_self]

theorem mulRN_inf_zero {a b : F64} {s t : Bool} {g : Int} (ha : unpackF64 a = .inf s)
    (hb : unpackF64 b = .finite t 0 g) : mulRN a b = nanF64 a b ∧ mulRN b a = nanF64 b a := by
  simp only [mulRN, ha, hb, if_pos, and_self]

theorem mulRN_nan {a : F64} (ha : unpackF64 a = .nan) (b : F64) :
    mulRN a b = nanF64 a b ∧ mulRN b a = nanF64 b a := by
  cases hb : unpackF64 b <;> simp only [mulRN, ha, hb, and_self]

theorem divRN_zero {a b : F64} {s t : Bool} {m : Nat} {e g : Int} (ha : unpackF64 a = .finite s m e)
    (hb : unpackF64 b = .finite t 0 g) : divRN a b = if m = 0 then nanF64 a b else signed (s ^^ t) infMag := by
  simp only [divRN, ha, hb, if_pos]

theorem divRN_inf_finite {a b : F64} {s t : Bool} {n : Nat} {g : Int} (ha : unpackF64 a = .inf s)
    (hb : unpackF64 b = .finite t n g) : divRN a b = signed (s ^^ t) infMag ∧ divRN b a = signed (s ^^ t) 0 := by
  simp only [divRN, ha, hb, Bool.xor_comm t s, and_self]

theorem divRN_inf_inf {a b : F64} {s t : Bool} (ha : unpackF64 a = .inf s) (hb : unpackF64 b = .inf t) :
    divRN a b = nanF64 a b := by
  simp only [divRN, ha, hb]

theorem divRN_nan {a : F64} (ha : unpackF64 a = .nan) (b : F64) :
    divRN a b = nanF64 a b ∧ divRN b a = nanF64 b a := by
  cases hb : unpackF64 b <;> simp only [divRN, ha, hb, and_self]

/-! Values and significands. -/

/-- A finite number is zero exactly when its significand is. -/
theorem finite_eq_zero_iff (s : Bool) (m : Nat) (e : Int) : signQ s * m * 2 ^ e = 0 ↔ m = 0 := by
  cases s <;> simp [signQ, zpow_ne_zero e (two_ne_zero (α := ℚ))]

/-- The fields of the pattern of a number that is not infinite. -/
theorem unpackF64_of_value_msb {z : F64} {v : ℚ} (h : f64Value z = some v) :
    ∃ m e, unpackF64 z = .finite z.msb m e ∧ (v = 0 ↔ m = 0) := by
  obtain ⟨s, m, e, hz, rfl⟩ := unpackF64_of_value h
  exact ⟨m, e, by rw [hz, msb_of_finite hz], finite_eq_zero_iff s m e⟩

/-- Past the largest finite number, rounding gives that number or infinity. -/
theorem roundF64_overflow (neg : Bool) {n d : Nat} {e : Int} (hd : 0 < d) :
    (Reference.maxFinite < quot n d e → quot n d e < Reference.overflowBound →
      roundF64 neg n d e = Reference.largest neg) ∧
    (Reference.overflowBound ≤ quot n d e → roundF64 neg n d e = Reference.infinity neg) := by
  have hn (h : Reference.maxFinite < quot n d e) : 0 < n := by
    refine Nat.pos_of_ne_zero ?_
    rintro rfl
    rw [quot, Nat.cast_zero, zero_div, zero_mul] at h
    exact absurd (le_maxFinite.trans_lt h) (by simp)
  rw [roundF64_eq_signed]
  refine ⟨fun h1 h2 => ?_, fun h => ?_⟩
  · rw [roundMag_largest (hn h1) hd h1 h2, largest_eq]
  · rw [roundMag_inf (hn (maxFinite_lt_overflowBound.trans_le h)) hd h, infinity_eq]

end Sys2Proof.Machine

namespace Sys2Proof

open Machine

/-- Settles O42: `mulRN` on finite operands overflows as `roundF64` does, and on the other operands it is its table. -/
theorem multiplicationOverflowsAndSpecials : Obligations.MultiplicationOverflowsAndSpecials := by
  refine ⟨fun a b x y ha hb => ?_, fun a b ha => ⟨fun h => ?_, fun hb => ?_⟩, fun a b ha => ?_⟩
  · obtain ⟨n, e, hxy, hround⟩ := mulRN_of_values ha hb
    rw [hxy, abs_signQ_mul_quot, hround]
    exact roundF64_overflow _ one_pos
  · have ha := unpackF64_of_isInf ha
    rw [infinity_eq]
    rcases h with hb | ⟨y, hb, hy⟩
    · have hb := unpackF64_of_isInf hb
      exact ⟨mulRN_inf_inf ha hb, Bool.xor_comm _ _ ▸ mulRN_inf_inf hb ha⟩
    · obtain ⟨n, g, hb, hzero⟩ := unpackF64_of_value_msb hb
      exact mulRN_inf_finite ha hb (mt hzero.2 hy)
  · obtain ⟨n, g, hb, hzero⟩ := unpackF64_of_value_msb hb
    obtain rfl := hzero.1 rfl
    obtain ⟨hab, hba⟩ := mulRN_inf_zero (unpackF64_of_isInf ha) hb
    rw [hab, hba]
    exact ⟨isNaN_nanF64 a b, isNaN_nanF64 b a⟩
  · obtain ⟨hab, hba⟩ := mulRN_nan ((isNaN_iff_unpack a).1 ha) b
    rw [hab, hba]
    exact ⟨isNaN_nanF64 a b, isNaN_nanF64 b a⟩

/-- Settles O43: `divRN` on finite operands overflows as `roundF64` does, and on the other operands it is its table. -/
theorem divisionOverflowsAndSpecials : Obligations.DivisionOverflowsAndSpecials := by
  refine ⟨fun a b x y ha hb => ?_, fun a b ha => ⟨fun y hb => ?_, fun hb => ?_⟩, fun a b ha => ?_⟩
  · have hoverflow (hy : y ≠ 0) : (Reference.maxFinite < |x / y| → |x / y| < Reference.overflowBound →
          divRN a b = Reference.largest (a.msb ^^ b.msb)) ∧
        (Reference.overflowBound ≤ |x / y| → divRN a b = Reference.infinity (a.msb ^^ b.msb)) := by
      obtain ⟨n, d, e, hd, hxy, hround⟩ := divRN_of_values ha hb hy
      rw [hxy, abs_signQ_mul_quot, hround]
      exact roundF64_overflow _ hd
    obtain ⟨m, e, ha, hx⟩ := unpackF64_of_value_msb ha
    obtain ⟨n, g, hb, hy⟩ := unpackF64_of_value_msb hb
    refine ⟨fun hy => (hoverflow hy).1, fun hy => (hoverflow hy).2, fun hy0 hx0 => ?_, fun hy0 hx0 => ?_⟩ <;>
      obtain rfl := hy.1 hy0
    · rw [divRN_zero ha hb, if_neg (mt hx.2 hx0), infinity_eq]
    · rw [divRN_zero ha hb, if_pos (hx.1 hx0)]
      exact isNaN_nanF64 a b
  · obtain ⟨n, g, hb, -⟩ := unpackF64_of_value_msb hb
    rw [infinity_eq, zero_eq]
    exact divRN_inf_finite (unpackF64_of_isInf ha) hb
  · rw [divRN_inf_inf (unpackF64_of_isInf ha) (unpackF64_of_isInf hb)]
    exact isNaN_nanF64 a b
  · obtain ⟨hab, hba⟩ := divRN_nan ((isNaN_iff_unpack a).1 ha) b
    rw [hab, hba]
    exact ⟨isNaN_nanF64 a b, isNaN_nanF64 b a⟩

end Sys2Proof
end

section
/-! PROOFS. The voltages of the counts (42_voltage_scaler.md R181, R182): the settlement of O45 to O48. -/

namespace Sys2Proof

namespace Machine

/-! The voltage of count 0. -/

theorem mulRN_zero_left {a : F64} {m : Nat} {e : Int} (ha : unpackF64 a = .finite false m e) : mulRN 0 a = 0 := by
  rw [mulRN_finite unpackF64_zero ha, zero_mul, Bool.xor_false, roundF64_zero]

theorem divRN_zero_left {a : F64} {m : Nat} {e : Int} (ha : unpackF64 a = .finite false m e) (hm : m ≠ 0) :
    divRN 0 a = 0 := by
  rw [divRN_finite unpackF64_zero ha hm, Bool.xor_false, roundF64_zero]

theorem f64_zero : f64 0 = 0 := rfl

theorem scaleCore_zero {res gain : Byte} (hr : isResolution res = true) (hg : isGain gain = true) :
    scaleCore 0 res gain = 0 := by
  rw [scaleCore, f64_zero, mulRN_zero_left (lsb_finite hr), divRN_zero_left (f64_gain_finite hg) (by norm_num)]

/-! The exact scaling by the resolution and the gain. -/

/-- A legal gain is the power of two of its gain code. -/
theorem gain_eq_two_pow {gain : Byte} (hg : isGain gain = true) :
    (gain.toNat : ℚ) = 2 ^ (Nat.log2 gain.toNat : Int) := by
  have hpow : gain.toNat = 2 ^ Nat.log2 gain.toNat := by
    rcases isGain_cases hg with rfl | rfl | rfl | rfl <;> decide
  rw [zpow_natCast]
  exact_mod_cast hpow

/-- The voltage is the rounded product of count and VREF, scaled exactly (R182). -/
theorem scaleCore_value {res gain : Byte} {c : Int} (hr : isResolution res = true) (hg : isGain gain = true)
    (h1 : -(2 ^ 31) ≤ c) (h2 : c ≤ 2 ^ 31) : ∃ p : ℚ, f64Value (mulRN (f64 c) vref) = some p ∧
      f64Value (scaleCore c res gain) = some (p * 2 ^ (1 - (res.toNat : Int)) / (gain.toNat : ℚ)) := by
  rcases eq_or_ne c 0 with rfl | hc
  · refine ⟨0, ?_, ?_⟩
    · rw [f64_zero, mulRN_zero_left vref_finite, f64Value_zero]
    · rw [scaleCore_zero hr hg, f64Value_zero, zero_mul, zero_div]
  · obtain ⟨m, u, hprod, -, -, -, -, hvolt⟩ := scaleCore_finite hr hg hc h1 h2
    refine ⟨_, f64Value_finite hprod, ?_⟩
    rw [f64Value_finite hvolt, gain_eq_two_pow hg,
      show u + 1 - (res.toNat : Int) - (Nat.log2 gain.toNat : Int) = u + (1 - res.toNat) - Nat.log2 gain.toNat by ring,
      zpow_sub₀ two_ne_zero, zpow_add₀ two_ne_zero]
    simp only [mul_assoc, mul_div_assoc]

theorem count_range (count : Count) : -(2 ^ 31) ≤ count.toInt ∧ count.toInt ≤ 2 ^ 31 := by
  have h := toInt_count count
  have := count.isLt
  split_ifs at h <;> omega

end Machine

open Machine

/-- Settles O45: SCALE completes with `scaleCore`, whose one rounding is the product's. -/
theorem scaleRoundsOnce : Obligations.ScaleRoundsOnce := by
  intro gain res count s hres hgain
  have hr := isResolution_of_legal hres
  have hg := isGain_of_legal hgain
  obtain ⟨h1, h2⟩ := count_range count
  refine ⟨exec_of_view ?_, scaleCore_value hr hg h1 h2⟩
  rw [responseOf, scaleResponse_legal hr hg]
  rfl

namespace Machine

/-! The pattern of a voltage. -/

/-- A pattern with a significand of 53 bits is normal. -/
theorem voltageLegal_of_normal {x : F64} {s : Bool} {m : Nat} {e : Int} (h : unpackF64 x = .finite s m e)
    (hm : 2 ^ 52 ≤ m) : voltageLegal x = true ∧ x ≠ 0 := by
  have hfield := (x.extractLsb 62 52).isLt
  have hfrac := (x.extractLsb 51 0).isLt
  constructor
  · simp only [unpackF64] at h
    simp only [voltageLegal, Bool.or_eq_true, Bool.and_eq_true, decide_eq_true_eq]
    split_ifs at h with he h0
    · obtain ⟨-, rfl, -⟩ := Binary64.finite.inj h
      omega
    · omega
  · rintro rfl
    rw [unpackF64_zero] at h
    obtain ⟨-, rfl, -⟩ := Binary64.finite.inj h
    omega

end Machine

/-- Settles O46: a count that is not zero has a voltage with a significand of 53 bits and its own sign. -/
theorem voltagesAreNormalOrZero : Obligations.VoltagesAreNormalOrZero := by
  intro gain res c hres hgain h1 h2
  have hr := isResolution_of_legal hres
  have hg := isGain_of_legal hgain
  rcases eq_or_ne c 0 with rfl | hc
  · rw [scaleCore_zero hr hg]
    exact ⟨rfl, iff_of_true rfl rfl, rfl⟩
  · obtain ⟨m, u, -, hm, -, -, -, hvolt⟩ := scaleCore_finite hr hg hc h1 h2
    obtain ⟨hlegal, hne⟩ := voltageLegal_of_normal hvolt hm
    exact ⟨hlegal, iff_of_false hne hc, msb_of_finite hvolt⟩

namespace Machine

/-! The sign passes through every operation of the scaler. -/

theorem f64_neg {c : Int} (hc : c ≠ 0) : f64 (-c) = flipSign (f64 c) := by
  rw [f64, f64, Int.natAbs_neg, ← roundF64_not]
  congr 1
  rcases lt_or_gt_of_ne hc with h | h
  · rw [decide_eq_true h, decide_eq_false (by omega), Bool.not_true]
  · rw [decide_eq_true (by omega), decide_eq_false (by omega), Bool.not_false]

theorem mulRN_flipSign {a b : F64} {s t : Bool} {m n : Nat} {e g : Int} (ha : unpackF64 a = .finite s m e)
    (hb : unpackF64 b = .finite t n g) : mulRN (flipSign a) b = flipSign (mulRN a b) := by
  rw [mulRN_finite (unpackF64_flipSign ha) hb, mulRN_finite ha hb, Bool.not_xor, roundF64_not]

theorem divRN_flipSign {a b : F64} {s t : Bool} {m n : Nat} {e g : Int} (ha : unpackF64 a = .finite s m e)
    (hb : unpackF64 b = .finite t n g) (hn : n ≠ 0) : divRN (flipSign a) b = flipSign (divRN a b) := by
  rw [divRN_finite (unpackF64_flipSign ha) hb hn, divRN_finite ha hb hn, Bool.not_xor, roundF64_not]

/-- A quotient by a finite number is finite only of a finite number. -/
theorem finite_of_divRN_finite {a b : F64} {s t : Bool} {m n : Nat} {e g : Int} (hb : unpackF64 b = .finite t n g)
    (h : unpackF64 (divRN a b) = .finite s m e) : ∃ s' m' e', unpackF64 a = .finite s' m' e' := by
  cases ha : unpackF64 a with
  | finite s' m' e' => exact ⟨s', m', e', rfl⟩
  | inf s' =>
    have hinf : Reference.IsInf (Reference.infinity (s' ^^ t)) := by cases s' ^^ t <;> simp [Reference.IsInf]
    rw [(divRN_inf_finite ha hb).1, ← infinity_eq, unpackF64_of_isInf hinf] at h
    cases h
  | nan =>
    rw [(divRN_nan ha b).1, (isNaN_iff_unpack _).1 (isNaN_nanF64 a b)] at h
    cases h

end Machine

/-- Settles O47: the count's sign passes through the conversion, the product and the quotient. -/
theorem voltageIsOdd : Obligations.VoltageIsOdd := by
  intro gain res c hres hgain hc h1 h2
  have hr := isResolution_of_legal hres
  have hg := isGain_of_legal hgain
  obtain ⟨m, u, -, -, -, -, -, hvolt⟩ := scaleCore_finite hr hg hc h1 h2
  obtain ⟨s, n, e, hcount, -⟩ := unpackF64_of_value (integersConvertExactly c (by omega))
  obtain ⟨s', n', e', hprod⟩ := finite_of_divRN_finite (f64_gain_finite hg) hvolt
  rw [scaleCore, f64_neg hc, mulRN_flipSign hcount (lsb_finite hr),
    divRN_flipSign hprod (f64_gain_finite hg) (by norm_num)]
  rfl

namespace Machine

/-! Rounding does not pass a finite number. -/

theorem nearestEven_le {x v X : ℚ} {y z : F64} (h : Reference.NearestEven x y) (hy : f64Value y = some v)
    (hz : f64Value z = some X) (hx : x ≤ X) : v ≤ X := by
  obtain ⟨w, hw, hnear, -⟩ := h
  obtain rfl := Option.some.inj (hw.symm.trans hy)
  have hdist := hnear z X hz
  rw [abs_of_nonneg (sub_nonneg.2 hx)] at hdist
  linarith [le_abs_self (w - x)]

theorem nearestEven_ge {x v X : ℚ} {y z : F64} (h : Reference.NearestEven x y) (hy : f64Value y = some v)
    (hz : f64Value z = some X) (hx : X ≤ x) : X ≤ v := by
  have hle := nearestEven_le (nearestEven_neg h) (f64Value_flipSign hy) (f64Value_flipSign hz) (neg_le_neg hx)
  linarith

/-! VREF times a power of two is a finite number: for the largest count's magnitude and for the extreme voltages. -/

theorem vref_largestCount_value : f64Value 0x41F0624DD2F1A9FC#64 =
    some (2 ^ 31 * (((0x10624DD2F1A9FC : Int) : ℚ) * 2 ^ (-51 : Int))) := by
  rw [f64Value_finite (show unpackF64 0x41F0624DD2F1A9FC#64 = .finite false 0x10624DD2F1A9FC (-20) by decide), signQ]
  norm_num

theorem largestVoltage_value : f64Value 0x4140624DD2F1A9FC#64 =
    some (2 ^ 31 * (((0x10624DD2F1A9FC : Int) : ℚ) * 2 ^ (-51 : Int)) * (2 ^ (-11 : Int) / 1)) := by
  rw [f64Value_finite (show unpackF64 0x4140624DD2F1A9FC#64 = .finite false 0x10624DD2F1A9FC (-31) by decide), signQ]
  norm_num

theorem smallestVoltage_value : f64Value 0x3EC0624DD2F1A9FC#64 =
    some (((0x10624DD2F1A9FC : Int) : ℚ) * 2 ^ (-51 : Int) * (2 ^ (-17 : Int) / 8)) := by
  rw [f64Value_finite (show unpackF64 0x3EC0624DD2F1A9FC#64 = .finite false 0x10624DD2F1A9FC (-71) by decide), signQ]
  norm_num

/-- The rounded product of VREF and a count from -2^31 to 2^31, other than 0, lies between VREF and 2^31 VREF. -/
theorem product_bounds {c : Int} (hc : c ≠ 0) (h1 : -(2 ^ 31) ≤ c) (h2 : c ≤ 2 ^ 31) {v p : ℚ}
    (hv : f64Value vref = some v) (hp : f64Value (mulRN (f64 c) vref) = some p) : v ≤ |p| ∧ |p| ≤ 2 ^ 31 * v := by
  obtain rfl := Option.some.inj (vref_value.symm.trans hv)
  have hbig := vref_largestCount_value
  have hmax : |(c : ℚ) * (((0x10624DD2F1A9FC : Int) : ℚ) * 2 ^ (-51 : Int))| ≤ Reference.maxFinite := by
    have habs : |(c : ℚ)| ≤ 2 ^ 31 := by exact_mod_cast abs_le.2 ⟨h1, h2⟩
    rw [abs_mul]
    calc _ ≤ (2 : ℚ) ^ 31 * |((0x10624DD2F1A9FC : Int) : ℚ) * 2 ^ (-51 : Int)| := by gcongr
      _ ≤ 2 ^ 60 := by norm_num
      _ ≤ Reference.maxFinite := large_lt_overflow.le.trans le_maxFinite
  have hnear := (multiplicationRoundsToNearestEven _ _ _ _ (integersConvertExactly c (by omega)) hv hmax).1
  have hpos : (0 : ℚ) ≤ ((0x10624DD2F1A9FC : Int) : ℚ) * 2 ^ (-51 : Int) := by positivity
  generalize ((0x10624DD2F1A9FC : Int) : ℚ) * 2 ^ (-51 : Int) = v at *
  rcases lt_or_gt_of_ne hc with hneg | hposc
  · have hle1 : (c : ℚ) ≤ -1 := by exact_mod_cast (show c ≤ -1 by omega)
    have hge1 : -(2 ^ 31) ≤ (c : ℚ) := by exact_mod_cast h1
    have hhigh := nearestEven_le hnear hp (f64Value_flipSign hv) (by nlinarith)
    have hlow := nearestEven_ge hnear hp (f64Value_flipSign hbig) (by nlinarith)
    rw [abs_of_nonpos (by linarith)]
    constructor <;> linarith
  · have hge1 : 1 ≤ (c : ℚ) := by exact_mod_cast hposc
    have hle1 : (c : ℚ) ≤ 2 ^ 31 := by exact_mod_cast h2
    have hlow := nearestEven_ge hnear hp hv (by nlinarith)
    have hhigh := nearestEven_le hnear hp hbig (by nlinarith)
    rw [abs_of_nonneg (by linarith)]
    exact ⟨hlow, hhigh⟩

/-- The exact scaling lies between that of 18 bits and gain 8 and that of 12 bits and gain 1. -/
theorem scaling_bounds {res gain : Byte} (hr : isResolution res = true) (hg : isGain gain = true) :
    (2 : ℚ) ^ (-17 : Int) / 8 ≤ 2 ^ (1 - (res.toNat : Int)) / (gain.toNat : ℚ) ∧
      (2 : ℚ) ^ (1 - (res.toNat : Int)) / (gain.toNat : ℚ) ≤ 2 ^ (-11 : Int) / 1 := by
  have hres : 12 ≤ res.toNat ∧ res.toNat ≤ 18 := by
    rcases isResolution_cases hr with rfl | rfl | rfl | rfl <;> decide
  have hgain : 1 ≤ gain.toNat ∧ gain.toNat ≤ 8 := by
    rcases isGain_cases hg with rfl | rfl | rfl | rfl <;> decide
  have hg1 : (1 : ℚ) ≤ gain.toNat := by exact_mod_cast hgain.1
  have hg8 : (gain.toNat : ℚ) ≤ 8 := by exact_mod_cast hgain.2
  have hlow : (2 : ℚ) ^ (-17 : Int) ≤ 2 ^ (1 - (res.toNat : Int)) := zpow_le_zpow_right₀ one_le_two (by omega)
  have hhigh : (2 : ℚ) ^ (1 - (res.toNat : Int)) ≤ 2 ^ (-11 : Int) := zpow_le_zpow_right₀ one_le_two (by omega)
  constructor <;> gcongr

end Machine

/-- Settles O48: rounding keeps the product between VREF and 2^31 VREF, both of which are finite numbers, and the rest
is exact. -/
theorem voltageMagnitudeBounds : Obligations.VoltageMagnitudeBounds := by
  refine ⟨by decide, by decide, fun gain res c w hi lo hres hgain h1 h2 hw hhi hlo => ?_⟩
  have hr := isResolution_of_legal hres
  have hg := isGain_of_legal hgain
  obtain ⟨p, hp, hvalue⟩ := scaleCore_value hr hg h1 h2
  obtain rfl := Option.some.inj (hvalue.symm.trans hw)
  obtain rfl := Option.some.inj (largestVoltage_value.symm.trans hhi)
  obtain rfl := Option.some.inj (smallestVoltage_value.symm.trans hlo)
  obtain ⟨hscaleLow, hscaleHigh⟩ := scaling_bounds hr hg
  rw [mul_div_assoc, abs_mul, abs_of_nonneg (show 0 ≤ (2 : ℚ) ^ (1 - (res.toNat : Int)) / gain.toNat by positivity)]
  rcases eq_or_ne c 0 with rfl | hc
  · rw [f64_zero, mulRN_zero_left vref_finite, f64Value_zero] at hp
    obtain rfl := Option.some.inj hp
    refine ⟨?_, fun h => absurd rfl h⟩
    rw [abs_zero, zero_mul]
    positivity
  · obtain ⟨hlow, hhigh⟩ := product_bounds hc h1 h2 vref_value hp
    refine ⟨?_, fun _ => ?_⟩ <;> gcongr

end Sys2Proof
end

section
/-! PROOFS. How each command can end, with the values it delivers (10_state.md R25, 60_exceptions.md R220 to R222): the
settlement of O17, O18 and O22. -/

namespace Sys2Proof

namespace Machine

/-! The values that the commands deliver are legal. -/

theorem configLegal_configFields (cc rc gc : BitVec 2) (res : Byte) :
    configLegal (configFields cc rc gc) (BitVec.ofNat 32 (numDataBytes res)) = true := by
  have hbyte : (configFields cc rc gc).extractLsb 7 7 = 1 ∧ (configFields cc rc gc).extractLsb 4 4 = 0 := by
    revert cc rc gc; decide
  rw [configLegal, hbyte.1, hbyte.2, numDataBytes]
  split <;> rfl

theorem snapshot_resolution (w : Working) (adj : Int) (res : Byte) : (snapshot w adj res).extractLsb 7 0 = res :=
  BitVec.extractLsb'_append_eq_right

theorem snapshot_lowbyte (w : Working) (adj : Int) (res : Byte) :
    (snapshot w adj res).extractLsb 15 8 = lowbyte adj :=
  (BitVec.extractLsb'_append_eq_of_le (by decide)).trans BitVec.extractLsb'_append_eq_right

/-- The low byte of the count on its port is the low byte of the count. -/
theorem extract_ofInt_lowbyte (adj : Int) : (BitVec.ofInt 32 adj).extractLsb 7 0 = lowbyte adj := by
  apply BitVec.eq_of_toNat_eq
  rw [BitVec.extractLsb_toNat, lowbyte, BitVec.toNat_ofInt, BitVec.toNat_ofInt, Nat.shiftRight_zero]
  omega

theorem decodeCore_range {res : Byte} (hres : isResolution res = true) (raw : Raw) :
    -131071 ≤ (decodeCore raw (numDataBytes res) res).adj ∧ (decodeCore raw (numDataBytes res) res).adj ≤ 131071 := by
  rw [decodeCore_adj]
  exact Reference.adjusted_range ((isResolution_iff_legalRes res).1 hres) raw.b0.isLt raw.b1.isLt raw.b2.isLt

theorem decodedLegal_decodeCore {res : Byte} (hres : isResolution res = true) (raw : Raw) :
    decodedLegal (BitVec.ofInt 32 (decodeCore raw (numDataBytes res) res).adj)
      (decodeCore raw (numDataBytes res) res).snap = true := by
  obtain ⟨hlow, hhigh⟩ := decodeCore_range hres raw
  have hlegal : [12#8, 14#8, 16#8, 18#8].contains res = true := (isResolution_iff_legal res).symm.trans hres
  simp only [decodedLegal, toInt_ofInt_decodeCore hres, hlow, hhigh, extract_ofInt_lowbyte, decide_true, Bool.true_and]
  rw [decodeCore, snapshot_lowbyte, snapshot_resolution, beq_self_eq_true, hlegal]
  rfl

theorem voltageLegal_scaleCore {res gain : Byte} (hres : isResolution res = true) (hgain : isGain gain = true)
    {c : Int} (h1 : -(2 ^ 31) ≤ c) (h2 : c ≤ 2 ^ 31) : voltageLegal (scaleCore c res gain) = true :=
  (voltagesAreNormalOrZero gain res c ((isResolution_iff_legalRes res).1 hres) ((isGain_iff_legalGain gain).1 hgain)
    h1 h2).1

/-- The byte is a gain or a resolution: what a field helper delivers, and what `State.valuesLegal` asks of a byte
without an integer result. -/
def helperByteLegal (b : Byte) : Bool := [1#8, 2#8, 4#8, 8#8, 12#8, 14#8, 16#8, 18#8].contains b

theorem helperByte_legal {code : Byte} (h : code.toNat ≤ 3) :
    helperByteLegal (BitVec.ofNat 8 (2 ^ code.toNat)) = true ∧
      helperByteLegal (BitVec.ofNat 8 (12 + 2 * code.toNat)) = true := by
  generalize code.toNat = c at h
  interval_cases c <;> decide

/-! How each command can end: with the results of its row in R25's table, or with a fault of R222's table for it. -/

theorem encfgResponse_ok_legal {p : Params} {ch res gain : Byte} {r : Results}
    (h : encfgResponse p ch res gain = .ok r) :
    ∃ b nb, encfgResponse p ch res gain = .ok { byte := some b, int := some nb } ∧ configLegal b nb = true := by
  obtain ⟨hch, rc, gc, -, -, rfl⟩ := encfgResponse_ok_cases h
  obtain ⟨cc, rfl⟩ := (legalChannels_iff_code ch).1 (isChannel_iff_legal ch ▸ hch)
  exact ⟨_, _, h, by rw [packCfg_channelOfCode]; exact configLegal_configFields cc rc gc res⟩

/-- ENCFG raises RESOLUTION and GAIN without the legacy fallback only. -/
theorem encfgResponse_cases (p : Params) (ch res gain : Byte) :
    (∃ b nb, encfgResponse p ch res gain = .ok { byte := some b, int := some nb } ∧ configLegal b nb = true) ∨
    encfgResponse p ch res gain = .error (.configurationError .channel) ∨
    p.legacyFallback = false ∧ (encfgResponse p ch res gain = .error (.configurationError .resolution) ∨
      encfgResponse p ch res gain = .error (.configurationError .gain)) := by
  cases hch : isChannel ch with
  | false => exact .inr (.inl (encfgResponse_illegalChannel hch p res gain))
  | true =>
    cases hp : p.legacyFallback with
    | true => exact .inl (encfgResponse_ok_legal (encfgResponse_completes hch (.inr hp) (.inr hp)))
    | false =>
      by_cases hres : Reference.legalRes res.toNat
      · by_cases hgain : Reference.legalGain gain.toNat
        · exact .inl (encfgResponse_ok_legal (encfgResponse_completes hch (.inl hres) (.inl hgain)))
        · exact .inr (.inr ⟨rfl, .inr (encfgResponse_illegalGain hp hch hres hgain)⟩)
      · exact .inr (.inr ⟨rfl, .inl (encfgResponse_illegalResolution hp hch hres gain)⟩)

theorem decodeResponse_cases (nb res : Byte) (raw : Raw) :
    (∃ adj snap, decodeResponse nb res raw = .ok { int := some adj, snap := some snap } ∧
      decodedLegal adj snap = true) ∨
    decodeResponse nb res raw = .error (.configurationError .resolution) ∨
    decodeResponse nb res raw = .error (.configurationError .nbytes) := by
  cases hres : isResolution res with
  | false => exact .inr (.inl (decodeResponse_illegalResolution hres nb raw))
  | true =>
    by_cases hnb : nb.toNat = numDataBytes res
    · exact .inl ⟨_, _, decodeResponse_legal hres hnb raw, decodedLegal_decodeCore hres raw⟩
    · exact .inr (.inr (decodeResponse_illegalLength hres hnb raw))

theorem scaleResponse_cases (gain res : Byte) (count : Count) :
    (∃ v, scaleResponse gain res count = .ok { f64 := some v } ∧ voltageLegal v = true) ∨
    scaleResponse gain res count = .error (.configurationError .resolution) ∨
    scaleResponse gain res count = .error (.configurationError .gain) := by
  cases hres : isResolution res with
  | false => exact .inr (.inl (scaleResponse_illegalResolution hres gain count))
  | true =>
    cases hgain : isGain gain with
    | false => exact .inr (.inr (scaleResponse_illegalGain hres hgain count))
    | true =>
      obtain ⟨h1, h2⟩ := count_range count
      exact .inl ⟨_, scaleResponse_legal hres hgain count, voltageLegal_scaleCore hres hgain h1 h2⟩

theorem convertResponse_cases (gain res : Byte) (raw : Raw) :
    (∃ adj snap v, convertResponse gain res raw = .ok { int := some adj, snap := some snap, f64 := some v } ∧
      decodedLegal adj snap = true ∧ voltageLegal v = true) ∨
    convertResponse gain res raw = .error (.configurationError .resolution) ∨
    convertResponse gain res raw = .error (.configurationError .gain) := by
  cases hres : isResolution res with
  | false => exact .inr (.inl (convertResponse_illegalResolution hres gain raw))
  | true =>
    cases hgain : isGain gain with
    | false => exact .inr (.inr (convertResponse_illegalGain hres hgain raw))
    | true =>
      obtain ⟨h1, h2⟩ := decodeCore_range hres raw
      exact .inl ⟨_, _, _, convertResponse_legal hres hgain raw, decodedLegal_decodeCore hres raw,
        voltageLegal_scaleCore hres hgain (by omega) (by omega)⟩

theorem gainfResponse_cases (code : Byte) :
    (∃ b, gainfResponse code = .ok { byte := some b } ∧ helperByteLegal b = true) ∨
    gainfResponse code = .error (.configurationError .code) := by
  rcases le_or_gt code.toNat 3 with h | h
  · exact .inl ⟨_, gainfResponse_legal h, (helperByte_legal h).1⟩
  · exact .inr (gainfResponse_illegal h)

theorem resbResponse_cases (code : Byte) :
    (∃ b, resbResponse code = .ok { byte := some b } ∧ helperByteLegal b = true) ∨
    resbResponse code = .error (.configurationError .code) := by
  rcases le_or_gt code.toNat 3 with h | h
  · exact .inl ⟨_, resbResponse_legal h, (helperByte_legal h).2⟩
  · exact .inr (resbResponse_illegal h)

/-- A command whose status is OK has completed. -/
theorem exec_of_status_ok {i : Instr} {s t : State} (ht : exec i s = .next t) (hok : t.status = some 0) :
    ∃ r, responseOf s.params i = .ok r ∧ t = s.complete r := by
  rw [exec_next ht] at hok ⊢
  cases hr : responseOf s.params i with
  | ok r => exact ⟨r, rfl, State.respond_ok r s⟩
  | error f =>
    rw [hr, State.respond_error] at hok
    cases f <;> simp [faultStatus] at hok

end Machine

open Machine

/-- Settles O17: a command that completes has the results of its row. -/
theorem resultPortsByCommand : Obligations.ResultPortsByCommand := by
  intro i s t ht hok
  obtain ⟨r, hr, rfl⟩ := exec_of_status_ok ht hok
  cases i with
  | encfg ch res gain =>
    rcases encfgResponse_cases s.params ch res gain with ⟨b, nb, h, -⟩ | h | ⟨-, h | h⟩ <;> cases hr.symm.trans h
    exact ⟨rfl, rfl, rfl, rfl⟩
  | decode nb res raw =>
    rcases decodeResponse_cases nb res raw with ⟨adj, snap, h, -⟩ | h | h <;> cases hr.symm.trans h
    exact ⟨rfl, rfl, rfl, rfl⟩
  | scale gain res count =>
    rcases scaleResponse_cases gain res count with ⟨v, h, -⟩ | h | h <;> cases hr.symm.trans h
    exact ⟨rfl, rfl, rfl, rfl⟩
  | convert gain res raw =>
    rcases convertResponse_cases gain res raw with ⟨adj, snap, v, h, -⟩ | h | h <;> cases hr.symm.trans h
    exact ⟨rfl, rfl, rfl, rfl⟩
  | gainf code =>
    rcases gainfResponse_cases code with ⟨b, h, -⟩ | h <;> cases hr.symm.trans h
    exact ⟨rfl, rfl, rfl, rfl⟩
  | resb code =>
    rcases resbResponse_cases code with ⟨b, h, -⟩ | h <;> cases hr.symm.trans h
    exact ⟨rfl, rfl, rfl, rfl⟩

namespace Machine

/-- Where the response is a ConfigurationError, the status is 1 and no result port holds a value. -/
theorem exec_of_configurationError {i : Instr} {s t : State} {o : OperandCode} (ht : exec i s = .next t)
    (h : responseOf s.params i = .error (.configurationError o)) :
    t.status = some 1 ∧ t.noResults = true ∧ t.faultInfo = some (operandInfo o) := by
  rw [exec_next ht, h]
  exact ⟨rfl, rfl, rfl⟩

theorem exec_of_completion {i : Instr} {s t : State} {r : Results} (ht : exec i s = .next t)
    (h : responseOf s.params i = .ok r) : t.status = some 0 ∧ t.faultInfo = none := by
  rw [exec_next ht, h]
  exact ⟨rfl, rfl⟩

end Machine

/-- Settles O18: a command that does not complete raises one of the operand codes of its row. -/
theorem faultsLeaveNoResult : Obligations.FaultsLeaveNoResult := by
  intro i s t ht
  have hfault (o : OperandCode) (h : responseOf s.params i = .error (.configurationError o))
      {allowed : BitVec 4 → Prop} (ho : allowed (operandInfo o)) :
      t.status = some 1 ∧ t.noResults = true ∧ ∃ fi, t.faultInfo = some fi ∧ allowed fi := by
    obtain ⟨hstatus, hresults, hinfo⟩ := exec_of_configurationError ht h
    exact ⟨hstatus, hresults, _, hinfo, ho⟩
  cases i with
  | encfg ch res gain =>
    rcases encfgResponse_cases s.params ch res gain with ⟨b, nb, h, -⟩ | h | ⟨hp, h | h⟩
    · exact .inl (exec_of_completion ht h)
    · exact .inr (hfault _ h (.inl rfl))
    · exact .inr (hfault _ h (.inr ⟨hp, .inl rfl⟩))
    · exact .inr (hfault _ h (.inr ⟨hp, .inr rfl⟩))
  | decode nb res raw =>
    rcases decodeResponse_cases nb res raw with ⟨adj, snap, h, -⟩ | h | h
    · exact .inl (exec_of_completion ht h)
    · exact .inr (hfault _ h (.inl rfl))
    · exact .inr (hfault _ h (.inr rfl))
  | scale gain res count =>
    rcases scaleResponse_cases gain res count with ⟨v, h, -⟩ | h | h
    · exact .inl (exec_of_completion ht h)
    · exact .inr (hfault _ h (.inl rfl))
    · exact .inr (hfault _ h (.inr rfl))
  | convert gain res raw =>
    rcases convertResponse_cases gain res raw with ⟨adj, snap, v, h, -⟩ | h | h
    · exact .inl (exec_of_completion ht h)
    · exact .inr (hfault _ h (.inl rfl))
    · exact .inr (hfault _ h (.inr rfl))
  | gainf code =>
    rcases gainfResponse_cases code with ⟨b, h, -⟩ | h
    · exact .inl (exec_of_completion ht h)
    · exact .inr (hfault _ h rfl)
  | resb code =>
    rcases resbResponse_cases code with ⟨b, h, -⟩ | h
    · exact .inl (exec_of_completion ht h)
    · exact .inr (hfault _ h rfl)

namespace Machine

/-! The invariant: every response is legal, so every step leaves a legal one or none. -/

theorem raise_responseLegal (f : CommandFault) (s : State) : (s.raise f).responseLegal = true := by
  rcases f with o | r
  · cases o <;> rfl
  · cases r <;> rfl

theorem clearPorts_responseLegal (s : State) : s.clearPorts.responseLegal = true := rfl

/-- The ports after a completion are legal when the result ports are those of a row and hold legal values. -/
theorem complete_responseLegal (r : Results) (s : State) :
    (s.complete r).responseLegal = ((s.complete r).resultRow && (s.complete r).valuesLegal) := rfl

theorem respond_encfg_legal (p : Params) (ch res gain : Byte) (s : State) :
    (s.respond (encfgResponse p ch res gain)).responseLegal = true := by
  rcases encfgResponse_cases p ch res gain with ⟨b, nb, h, hlegal⟩ | h | ⟨-, h | h⟩ <;> rw [h]
  · simp [complete_responseLegal, State.resultRow, State.valuesLegal, hlegal]
  all_goals exact raise_responseLegal _ s

theorem respond_decode_legal (nb res : Byte) (raw : Raw) (s : State) :
    (s.respond (decodeResponse nb res raw)).responseLegal = true := by
  rcases decodeResponse_cases nb res raw with ⟨adj, snap, h, hlegal⟩ | h | h <;> rw [h]
  · simp [complete_responseLegal, State.resultRow, State.valuesLegal, hlegal]
  all_goals exact raise_responseLegal _ s

theorem respond_scale_legal (gain res : Byte) (count : Count) (s : State) :
    (s.respond (scaleResponse gain res count)).responseLegal = true := by
  rcases scaleResponse_cases gain res count with ⟨v, h, hlegal⟩ | h | h <;> rw [h]
  · simp [complete_responseLegal, State.resultRow, State.valuesLegal, hlegal]
  all_goals exact raise_responseLegal _ s

theorem respond_convert_legal (gain res : Byte) (raw : Raw) (s : State) :
    (s.respond (convertResponse gain res raw)).responseLegal = true := by
  rcases convertResponse_cases gain res raw with ⟨adj, snap, v, h, hdecoded, hvolt⟩ | h | h <;> rw [h]
  · simp [complete_responseLegal, State.resultRow, State.valuesLegal, hdecoded, hvolt]
  all_goals exact raise_responseLegal _ s

/-- A field helper's byte is one of the eight that the helpers deliver. -/
theorem respond_helper_legal {r : Response} (s : State)
    (h : (∃ b, r = .ok { byte := some b } ∧ helperByteLegal b = true) ∨
      r = .error (.configurationError .code)) : (s.respond r).responseLegal = true := by
  rcases h with ⟨b, rfl, hlegal⟩ | rfl
  · rw [State.respond_ok, complete_responseLegal]
    show (helperByteLegal b && true && true) = true
    rw [hlegal]
    rfl
  · exact raise_responseLegal _ s

/-- Every command leaves a legal response, whatever the ports held before. -/
theorem respond_responseOf_legal (p : Params) (i : Instr) (s : State) :
    (s.respond (responseOf p i)).responseLegal = true := by
  cases i with
  | encfg ch res gain => exact respond_encfg_legal p ch res gain s
  | decode nb res raw => exact respond_decode_legal nb res raw s
  | scale gain res count => exact respond_scale_legal gain res count s
  | convert gain res raw => exact respond_convert_legal gain res raw s
  | gainf code => exact respond_helper_legal s (gainfResponse_cases code)
  | resb code => exact respond_helper_legal s (resbResponse_cases code)

theorem respond_wordResponse_legal (p : Params) (w : CommandWord) (s : State) :
    (s.respond (wordResponse p w)).responseLegal = true := by
  unfold wordResponse
  cases decode w with
  | ok i => exact respond_responseOf_legal p i s
  | error r => exact raise_responseLegal (.illegalCommand r) s

end Machine

/-- Settles O22: a step clears the ports, gives a word's response, or leaves the ports as they are. -/
theorem stepKeepsResponseLegal : Obligations.StepKeepsResponseLegal := by
  intro s t hs ht
  rcases step_next_cases ht with rfl | rfl | rfl <;> rw [State.responseLegal_drive]
  · exact clearPorts_responseLegal s
  · exact respond_wordResponse_legal s.params s.cmd s
  · exact hs

end Sys2Proof
end

section
/-! PROOFS. The host's read request (70_reset_and_hazards.md R263, R266; log entries 9 and 13): the settlement of O53 to
O57. -/

namespace Sys2Proof

namespace Machine

/-- An issued command never stops: the block's ports then show the command's response. -/
theorem issue_of_view {i : Instr} {block : State} {v : PortView}
    (h : Response.view (responseOf block.params i) = v) : ∃ t, issue i block = some t ∧ t.view = v := by
  obtain ⟨t, ht, -, hview⟩ := issue_view i block
  refine ⟨t, ht, ?_⟩
  rw [hview, State.respond_withPorts, State.withPorts_view, wordResponse, decode_encode, h]

/-- The request after a command that the block has answered. -/
def Driver.answered (i : Instr) (t : State) (d : Driver) : Driver := { d.record i with block := t }

/-! Configuring and Reading. -/

/-- The request after its ENCFG and the write of the configuration byte. -/
def Driver.wrote (t : State) (b : Byte) (nb : Count) (d : Driver) : Driver :=
  { d.answered (.encfg d.req.ch d.req.res d.req.gain) t with
    nb := nb, events := d.events ++ [.write d.req.address b] }

theorem configure_of_fault {d : Driver} {f : CommandFault}
    (h : encfgResponse d.block.params d.req.ch d.req.res d.req.gain = .error f) :
    ∃ t, d.configure = (d.answered (.encfg d.req.ch d.req.res d.req.gain) t).fail .configurationError := by
  obtain ⟨t, ht, hview⟩ := issue_of_view (block := d.block) (i := .encfg d.req.ch d.req.res d.req.gain)
    (congrArg Response.view h)
  have hbyte : t.outByte = none := congrArg PortView.outByte hview
  refine ⟨t, ?_⟩
  simp only [Driver.configure, ht, hbyte, Driver.answered]

theorem configure_of_ok {d : Driver} {b : Byte} {nb : Count}
    (h : encfgResponse d.block.params d.req.ch d.req.res d.req.gain = .ok { byte := some b, int := some nb }) :
    ∃ t, t.view = okView (some b) (some nb) none none ∧ d.configure =
      if d.transport.writeOk then { d.wrote t b nb with phase := .waiting }
      else (d.wrote t b nb).fail .transportWriteFailure := by
  obtain ⟨t, ht, hview⟩ := issue_of_view (block := d.block) (i := .encfg d.req.ch d.req.res d.req.gain)
    (congrArg Response.view h)
  have hbyte : t.outByte = some b := congrArg PortView.outByte hview
  have hint : t.outInt = some nb := congrArg PortView.outInt hview
  refine ⟨t, hview, ?_⟩
  simp only [Driver.configure, ht, hbyte, hint]
  rfl

theorem readDevice_of_none {d : Driver} (h : d.transport.readBytes = none) :
    d.readDevice = Driver.fail .transportReadFailure { d with events := d.events ++ [.read d.req.address] } := by
  simp only [Driver.readDevice, h]

theorem readDevice_of_some {d : Driver} {raw : Raw} (h : d.transport.readBytes = some raw) :
    d.readDevice = { d with events := d.events ++ [.read d.req.address], phase := .decoding, raw := raw } := by
  simp only [Driver.readDevice, h]

/-! Decoding. Each of its three parts is unfolded as a function of the request: unfolded at one request, the kernel
would run the block on the issued word. -/

theorem decodeConvert_of_issue {d : Driver} {t : State}
    (ht : issue (.convert d.req.gain d.req.res d.raw) d.block = some t) :
    (∀ v snap, t.outF64 = some v → t.outSnap = some snap →
      d.decodeConvert = (d.answered (.convert d.req.gain d.req.res d.raw) t).finish v snap) ∧
    (t.outF64 = none →
      d.decodeConvert = (d.answered (.convert d.req.gain d.req.res d.raw) t).fail .configurationError) := by
  have hunfold := congrFun (by delta Driver.decodeConvert; rfl : Driver.decodeConvert = _) d
  refine ⟨fun v snap hv hsnap => ?_, fun hv => ?_⟩
  · simp only [hunfold, ht, hv, hsnap, Driver.answered]
  · simp only [hunfold, ht, hv, Driver.answered]

theorem decodeScale_of_issue {d : Driver} {t : State}
    (ht : issue (.decode (d.nb.setWidth 8) d.req.res d.raw) d.block = some t) :
    (∀ adj snap, t.outInt = some adj → t.outSnap = some snap →
      d.decodeScale = (d.answered (.decode (d.nb.setWidth 8) d.req.res d.raw) t).decodeThenScale adj snap) ∧
    (t.outInt = none →
      d.decodeScale = (d.answered (.decode (d.nb.setWidth 8) d.req.res d.raw) t).fail .configurationError) := by
  have hunfold := congrFun (by delta Driver.decodeScale; rfl : Driver.decodeScale = _) d
  refine ⟨fun adj snap hadj hsnap => ?_, fun hadj => ?_⟩
  · simp only [hunfold, ht, hadj, hsnap, Driver.answered]
  · simp only [hunfold, ht, hadj, Driver.answered]

theorem decodeThenScale_of_issue {d : Driver} {adj : Count} {t : State} (snap : Snapshot)
    (ht : issue (.scale d.req.gain d.req.res adj) d.block = some t) :
    (∀ v, t.outF64 = some v →
      d.decodeThenScale adj snap = (d.answered (.scale d.req.gain d.req.res adj) t).finish v snap) ∧
    (t.outF64 = none →
      d.decodeThenScale adj snap = (d.answered (.scale d.req.gain d.req.res adj) t).fail .configurationError) := by
  have hunfold := congrFun (congrFun (congrFun
    (by delta Driver.decodeThenScale; rfl : Driver.decodeThenScale = _) adj) snap) d
  refine ⟨fun v hv => ?_, fun hv => ?_⟩
  · simp only [hunfold, ht, hv, Driver.answered]
  · simp only [hunfold, ht, hv, Driver.answered]

theorem decodeConvert_of_ok {d : Driver} {int : Count} {snap : Snapshot} {v : F64}
    (h : convertResponse d.req.gain d.req.res d.raw = .ok { int := some int, snap := some snap, f64 := some v }) :
    ∃ t, d.decodeConvert = (d.answered (.convert d.req.gain d.req.res d.raw) t).finish v snap := by
  obtain ⟨t, ht, hview⟩ := issue_of_view (block := d.block) (i := .convert d.req.gain d.req.res d.raw)
    (congrArg Response.view h)
  exact ⟨t, (decodeConvert_of_issue ht).1 v snap (congrArg PortView.outF64 hview) (congrArg PortView.outSnap hview)⟩

theorem decodeConvert_of_fault {d : Driver} {f : CommandFault}
    (h : convertResponse d.req.gain d.req.res d.raw = .error f) :
    ∃ t, t.view = Response.view (.error f) ∧
      d.decodeConvert = (d.answered (.convert d.req.gain d.req.res d.raw) t).fail .configurationError := by
  obtain ⟨t, ht, hview⟩ := issue_of_view (block := d.block) (i := .convert d.req.gain d.req.res d.raw)
    (congrArg Response.view h)
  exact ⟨t, hview, (decodeConvert_of_issue ht).2 (congrArg PortView.outF64 hview)⟩

theorem decodeScale_of_ok {d : Driver} {adj : Count} {snap : Snapshot}
    (h : decodeResponse (d.nb.setWidth 8) d.req.res d.raw = .ok { int := some adj, snap := some snap }) :
    ∃ t, d.decodeScale =
      (d.answered (.decode (d.nb.setWidth 8) d.req.res d.raw) t).decodeThenScale adj snap := by
  obtain ⟨t, ht, hview⟩ := issue_of_view (block := d.block) (i := .decode (d.nb.setWidth 8) d.req.res d.raw)
    (congrArg Response.view h)
  exact ⟨t, (decodeScale_of_issue ht).1 adj snap (congrArg PortView.outInt hview) (congrArg PortView.outSnap hview)⟩

theorem decodeScale_of_fault {d : Driver} {f : CommandFault}
    (h : decodeResponse (d.nb.setWidth 8) d.req.res d.raw = .error f) :
    ∃ t, t.view = Response.view (.error f) ∧
      d.decodeScale = (d.answered (.decode (d.nb.setWidth 8) d.req.res d.raw) t).fail .configurationError := by
  obtain ⟨t, ht, hview⟩ := issue_of_view (block := d.block) (i := .decode (d.nb.setWidth 8) d.req.res d.raw)
    (congrArg Response.view h)
  exact ⟨t, hview, (decodeScale_of_issue ht).2 (congrArg PortView.outInt hview)⟩

theorem decodeThenScale_of_ok {d : Driver} {adj : Count} {v : F64}
    (h : scaleResponse d.req.gain d.req.res adj = .ok { f64 := some v }) (snap : Snapshot) :
    ∃ t, d.decodeThenScale adj snap = (d.answered (.scale d.req.gain d.req.res adj) t).finish v snap := by
  obtain ⟨t, ht, hview⟩ := issue_of_view (block := d.block) (i := .scale d.req.gain d.req.res adj)
    (congrArg Response.view h)
  exact ⟨t, (decodeThenScale_of_issue snap ht).1 v (congrArg PortView.outF64 hview)⟩

theorem decodeThenScale_of_fault {d : Driver} {adj : Count} {f : CommandFault}
    (h : scaleResponse d.req.gain d.req.res adj = .error f) (snap : Snapshot) :
    ∃ t, t.view = Response.view (.error f) ∧
      d.decodeThenScale adj snap = (d.answered (.scale d.req.gain d.req.res adj) t).fail .configurationError := by
  obtain ⟨t, ht, hview⟩ := issue_of_view (block := d.block) (i := .scale d.req.gain d.req.res adj)
    (congrArg Response.view h)
  exact ⟨t, hview, (decodeThenScale_of_issue snap ht).2 (congrArg PortView.outF64 hview)⟩

theorem step_of_viaConvert {d : Driver} (hphase : d.phase = .decoding) (hvia : d.viaConvert = true) :
    d.step = d.decodeConvert := by
  simp only [Driver.step, hphase, hvia, if_true]

theorem step_of_not_viaConvert {d : Driver} (hphase : d.phase = .decoding) (hvia : d.viaConvert = false) :
    d.step = d.decodeScale := by
  simp only [Driver.step, hphase, hvia, Bool.false_eq_true, if_false]

/-! The run of a request, by the outcome of its commands and of the transport. -/

section

variable (block : State) (req : Request) (tr : Transport) (viaConvert : Bool) (v0 : F64) (d0 : Snapshot)

/-- The request when it has written the configuration byte. -/
def Driver.written (b : Byte) (nb : Count) : Driver :=
  { Driver.start block req tr viaConvert v0 d0 with
    nb := nb, events := [.write req.address b], commands := [.encfg req.ch req.res req.gain] }

/-- The request when it has written, waited and read. -/
def Driver.hasRead (b : Byte) (nb : Count) : Driver :=
  { Driver.written block req tr viaConvert v0 d0 b nb with
    events := [.write req.address b, .delay (convDelayMs req.res), .read req.address] }

/-- The request with the bytes it has read, about to decode them. -/
def Driver.decoding (b : Byte) (nb : Count) (raw : Raw) : Driver :=
  { Driver.hasRead block req tr viaConvert v0 d0 b nb with phase := .decoding, raw := raw }

/-- Where ENCFG faults the request has failed before anything is written. -/
theorem run_of_encfg_fault {f : CommandFault}
    (h : encfgResponse block.params req.ch req.res req.gain = .error f) :
    ∃ t, (Driver.start block req tr viaConvert v0 d0).run = Driver.fail .configurationError
      { Driver.start t req tr viaConvert v0 d0 with commands := [.encfg req.ch req.res req.gain] } := by
  obtain ⟨t, ht⟩ := configure_of_fault (d := (Driver.start block req tr viaConvert v0 d0).step) h
  refine ⟨t, ?_⟩
  show (Driver.configure _).step.step.step = _
  rw [ht]
  rfl

variable {b : Byte} {nb : Count} (h : encfgResponse block.params req.ch req.res req.gain =
  .ok { byte := some b, int := some nb })
include h

theorem run_of_write_failure (hw : tr.writeOk = false) :
    ∃ t, t.view = okView (some b) (some nb) none none ∧ (Driver.start block req tr viaConvert v0 d0).run =
      (Driver.written t req tr viaConvert v0 d0 b nb).fail .transportWriteFailure := by
  obtain ⟨t, hview, ht⟩ := configure_of_ok (d := (Driver.start block req tr viaConvert v0 d0).step) h
  refine ⟨t, hview, ?_⟩
  show (Driver.configure _).step.step.step = _
  rw [ht.trans (if_neg (Bool.eq_false_iff.1 hw))]
  rfl

theorem run_of_read_failure (hw : tr.writeOk = true) (hr : tr.readBytes = none) :
    ∃ t, t.view = okView (some b) (some nb) none none ∧ (Driver.start block req tr viaConvert v0 d0).run =
      (Driver.hasRead t req tr viaConvert v0 d0 b nb).fail .transportReadFailure := by
  obtain ⟨t, hview, ht⟩ := configure_of_ok (d := (Driver.start block req tr viaConvert v0 d0).step) h
  refine ⟨t, hview, ?_⟩
  show (Driver.configure _).step.step.step = _
  rw [ht.trans (if_pos hw)]
  show (Driver.readDevice _).step = _
  rw [readDevice_of_none hr]
  rfl

variable {raw : Raw} (hw : tr.writeOk = true) (hr : tr.readBytes = some raw)
include hw hr

/-- Where the transport succeeds the run ends with the decoding of the bytes. -/
theorem run_of_read : ∃ t, (Driver.start block req tr viaConvert v0 d0).run =
    (Driver.decoding t req tr viaConvert v0 d0 b nb raw).step := by
  obtain ⟨t, -, ht⟩ := configure_of_ok (d := (Driver.start block req tr viaConvert v0 d0).step) h
  refine ⟨t, ?_⟩
  show (Driver.configure _).step.step.step = _
  rw [ht.trans (if_pos hw)]
  show (Driver.readDevice _).step = _
  rw [readDevice_of_some hr]
  rfl

theorem run_of_convert_ok {int : Count} {snap : Snapshot} {v : F64}
    (hc : convertResponse req.gain req.res raw = .ok { int := some int, snap := some snap, f64 := some v }) :
    ∃ t u, (Driver.start block req tr true v0 d0).run =
      ((Driver.decoding t req tr true v0 d0 b nb raw).answered (.convert req.gain req.res raw) u).finish v snap := by
  obtain ⟨t, ht⟩ := run_of_read block req tr true v0 d0 h hw hr
  obtain ⟨u, hu⟩ := decodeConvert_of_ok (d := Driver.decoding t req tr true v0 d0 b nb raw) hc
  exact ⟨t, u, (ht.trans (step_of_viaConvert rfl rfl)).trans hu⟩

theorem run_of_convert_fault {f : CommandFault} (hc : convertResponse req.gain req.res raw = .error f) :
    ∃ t u, u.view = Response.view (.error f) ∧ (Driver.start block req tr true v0 d0).run =
      ((Driver.decoding t req tr true v0 d0 b nb raw).answered (.convert req.gain req.res raw) u).fail
        .configurationError := by
  obtain ⟨t, ht⟩ := run_of_read block req tr true v0 d0 h hw hr
  obtain ⟨u, hview, hu⟩ := decodeConvert_of_fault (d := Driver.decoding t req tr true v0 d0 b nb raw) hc
  exact ⟨t, u, hview, (ht.trans (step_of_viaConvert rfl rfl)).trans hu⟩

theorem run_of_decode_fault {f : CommandFault} (hd : decodeResponse (nb.setWidth 8) req.res raw = .error f) :
    ∃ t u, u.view = Response.view (.error f) ∧ (Driver.start block req tr false v0 d0).run =
      ((Driver.decoding t req tr false v0 d0 b nb raw).answered (.decode (nb.setWidth 8) req.res raw) u).fail
        .configurationError := by
  obtain ⟨t, ht⟩ := run_of_read block req tr false v0 d0 h hw hr
  obtain ⟨u, hview, hu⟩ := decodeScale_of_fault (d := Driver.decoding t req tr false v0 d0 b nb raw) hd
  exact ⟨t, u, hview, (ht.trans (step_of_not_viaConvert rfl rfl)).trans hu⟩

variable {adj : Count} {snap : Snapshot}
  (hd : decodeResponse (nb.setWidth 8) req.res raw = .ok { int := some adj, snap := some snap })
include hd

theorem run_of_decode_ok : ∃ t u, (Driver.start block req tr false v0 d0).run =
    ((Driver.decoding t req tr false v0 d0 b nb raw).answered (.decode (nb.setWidth 8) req.res raw) u).decodeThenScale
      adj snap := by
  obtain ⟨t, ht⟩ := run_of_read block req tr false v0 d0 h hw hr
  obtain ⟨u, hu⟩ := decodeScale_of_ok (d := Driver.decoding t req tr false v0 d0 b nb raw) hd
  exact ⟨t, u, (ht.trans (step_of_not_viaConvert rfl rfl)).trans hu⟩

theorem run_of_scale_ok {v : F64} (hs : scaleResponse req.gain req.res adj = .ok { f64 := some v }) :
    ∃ t u u', (Driver.start block req tr false v0 d0).run =
      (((Driver.decoding t req tr false v0 d0 b nb raw).answered (.decode (nb.setWidth 8) req.res raw) u).answered
        (.scale req.gain req.res adj) u').finish v snap := by
  obtain ⟨t, u, ht⟩ := run_of_decode_ok block req tr v0 d0 h hw hr hd
  obtain ⟨u', hu⟩ := decodeThenScale_of_ok (d := (Driver.decoding t req tr false v0 d0 b nb raw).answered
    (.decode (nb.setWidth 8) req.res raw) u) hs snap
  exact ⟨t, u, u', ht.trans hu⟩

theorem run_of_scale_fault {f : CommandFault} (hs : scaleResponse req.gain req.res adj = .error f) :
    ∃ t u u', u'.view = Response.view (.error f) ∧ (Driver.start block req tr false v0 d0).run =
      (((Driver.decoding t req tr false v0 d0 b nb raw).answered (.decode (nb.setWidth 8) req.res raw) u).answered
        (.scale req.gain req.res adj) u').fail .configurationError := by
  obtain ⟨t, u, ht⟩ := run_of_decode_ok block req tr v0 d0 h hw hr hd
  obtain ⟨u', hview, hu⟩ := decodeThenScale_of_fault (d := (Driver.decoding t req tr false v0 d0 b nb raw).answered
    (.decode (nb.setWidth 8) req.res raw) u) hs snap
  exact ⟨t, u, u', hview, ht.trans hu⟩

end

end Machine

open Machine

/-- Settles O55: each of the illegal requests makes ENCFG fault. -/
theorem illegalRequestWritesNothing : Obligations.IllegalRequestWritesNothing := by
  intro block req tr viaConvert v0 d0 hillegal
  have hfault : ∃ f, encfgResponse block.params req.ch req.res req.gain = .error f := by
    cases hch : isChannel req.ch with
    | false => exact ⟨_, encfgResponse_illegalChannel hch _ _ _⟩
    | true =>
      have hrange := (isChannel_iff_range req.ch).1 hch
      obtain ⟨hp, hop⟩ := (hillegal.resolve_left fun h => hrange (.inl h)).resolve_left fun h => hrange (.inr h)
      by_cases hres : Reference.legalRes req.res.toNat
      · exact ⟨_, encfgResponse_illegalGain hp hch hres (hop.resolve_left (not_not.2 hres))⟩
      · exact ⟨_, encfgResponse_illegalResolution hp hch hres _⟩
  obtain ⟨f, hf⟩ := hfault
  obtain ⟨t, ht⟩ := run_of_encfg_fault block req tr viaConvert v0 d0 hf
  simp only [ht]
  exact ⟨rfl, rfl, rfl, rfl, rfl, rfl, rfl⟩

/-- Settles O54: ENCFG completes, and the host issues no command after it. -/
theorem transportFailuresEndTheRequest : Obligations.TransportFailuresEndTheRequest := by
  intro block req bytes viaConvert v0 d0 h1 h4 hlegal
  have hch : isChannel req.ch = true := (isChannel_iff_range req.ch).2 (by omega)
  have hok := encfgResponse_completes hch (hlegal.symm.imp_left And.left) (hlegal.symm.imp_left And.right)
  obtain ⟨t, hview, ht⟩ := run_of_write_failure block req ⟨false, bytes⟩ viaConvert v0 d0 hok rfl
  obtain ⟨t', hview', ht'⟩ := run_of_read_failure block req ⟨true, none⟩ viaConvert v0 d0 hok rfl rfl
  simp only [ht, ht']
  exact ⟨⟨rfl, rfl, rfl, rfl, rfl, rfl, rfl, hview⟩, ⟨rfl, rfl, rfl, rfl, rfl, rfl, rfl, hview'⟩⟩

namespace Machine

/-- The payload length that ENCFG returns is the one that DECODE takes. -/
theorem setWidth_payload (res : Nat) :
    (BitVec.ofNat 32 (Reference.payload res)).setWidth 8 = BitVec.ofNat 8 (Reference.payload res) := by
  unfold Reference.payload
  split <;> rfl

theorem toNat_payload (res : Nat) : (BitVec.ofNat 8 (Reference.payload res)).toNat = Reference.payload res := by
  unfold Reference.payload
  split <;> rfl

/-- DECODE with the payload length that ENCFG returned completes on a legal resolution. -/
theorem decodeResponse_encfgLength {res : Byte} (hres : Reference.legalRes res.toNat) (raw : Raw) :
    decodeResponse ((BitVec.ofNat 32 (Reference.payload res.toNat)).setWidth 8) res raw =
      .ok { int := some (Reference.intPort res.toNat raw), snap := some (Reference.snapPort res.toNat raw) } := by
  rw [setWidth_payload]
  exact decodeResponse_reference hres (toNat_payload res.toNat) raw

/-- SCALE of the count that DECODE returned delivers CONVERT's voltage. -/
theorem scaleResponse_intPort {gain res : Byte} (hres : Reference.legalRes res.toNat)
    (hgain : Reference.legalGain gain.toNat) (raw : Raw) :
    scaleResponse gain res (Reference.intPort res.toNat raw) =
      .ok { f64 := some (Reference.voltPort gain res raw) } := by
  rw [scaleResponse_legal (isResolution_of_legal hres) (isGain_of_legal hgain), Reference.intPort,
    toInt_ofInt_adjusted hres, Reference.voltPort]

end Machine

/-- Settles O53: every command of the request completes, and SCALE reads the count that CONVERT scales. -/
theorem requestSucceeds : Obligations.RequestSucceeds := by
  intro block req raw viaConvert v0 d0 h1 h4 hres hgain
  have hch : isChannel req.ch = true := (isChannel_iff_range req.ch).2 (by omega)
  have hok := encfgResponse_completes (p := block.params) hch (.inl hres) (.inl hgain)
  cases viaConvert with
  | true =>
    obtain ⟨t, u, hrun⟩ := run_of_convert_ok block req ⟨true, some raw⟩ v0 d0 hok rfl rfl
      (convertResponse_reference hres hgain raw)
    simp only [hrun]
    exact ⟨rfl, rfl, rfl, rfl, rfl, rfl, rfl⟩
  | false =>
    obtain ⟨t, u, u', hrun⟩ := run_of_scale_ok block req ⟨true, some raw⟩ v0 d0 hok rfl rfl
      (decodeResponse_encfgLength hres raw) (scaleResponse_intPort hres hgain raw)
    simp only [hrun, ← setWidth_payload]
    exact ⟨rfl, rfl, rfl, rfl, rfl, rfl, rfl⟩

/-- Settles O56: with the fallback ENCFG completes, and the decoding commands have no fallback. -/
theorem legacyFallbackRequestsFailInDecoding : Obligations.LegacyFallbackRequestsFailInDecoding := by
  intro block req raw viaConvert v0 d0 hp h1 h4 hillegal
  have hch : isChannel req.ch = true := (isChannel_iff_range req.ch).2 (by omega)
  have hok := encfgResponse_completes (p := block.params) (res := req.res) (gain := req.gain) hch (.inr hp) (.inr hp)
  by_cases hres : Reference.legalRes req.res.toNat
  · have hgain := isGain_of_illegal (hillegal.resolve_left (not_not.2 hres))
    have hisRes := isResolution_of_legal hres
    rw [if_pos (show _ ∨ _ from hres)]
    cases viaConvert with
    | true =>
      obtain ⟨t, u, hview, hrun⟩ := run_of_convert_fault block req ⟨true, some raw⟩ v0 d0 hok rfl rfl
        (convertResponse_illegalGain hisRes hgain raw)
      simp only [hrun]
      exact ⟨rfl, rfl, rfl, rfl, rfl, rfl, hview⟩
    | false =>
      obtain ⟨t, u, u', hview, hrun⟩ := run_of_scale_fault block req ⟨true, some raw⟩ v0 d0 hok rfl rfl
        (decodeResponse_encfgLength hres raw) (scaleResponse_illegalGain hisRes hgain _)
      simp only [hrun]
      exact ⟨rfl, rfl, rfl, rfl, rfl, rfl, hview⟩
  · have hisRes := isResolution_of_illegal hres
    rw [if_neg (show ¬ (_ ∨ _) from hres)]
    cases viaConvert with
    | true =>
      obtain ⟨t, u, hview, hrun⟩ := run_of_convert_fault block req ⟨true, some raw⟩ v0 d0 hok rfl rfl
        (convertResponse_illegalResolution hisRes _ raw)
      simp only [hrun]
      exact ⟨rfl, rfl, rfl, rfl, rfl, rfl, hview⟩
    | false =>
      obtain ⟨t, u, hview, hrun⟩ := run_of_decode_fault block req ⟨true, some raw⟩ v0 d0 hok rfl rfl
        (decodeResponse_illegalResolution hisRes _ raw)
      simp only [hrun]
      exact ⟨rfl, rfl, rfl, rfl, rfl, rfl, hview⟩

namespace Machine

/-- The request has ended, in Done or in Failed with the caller's variables as they were, after a beginning of write,
delay and read. -/
def Driver.Ended (req : Request) (v0 : F64) (d0 : Snapshot) (d : Driver) : Prop :=
  ((d.phase = .done ∧ d.ok = some true) ∨ (d.phase = .failed ∧ d.ok = some false ∧ d.analog = v0 ∧ d.diag = d0)) ∧
  d.step = d ∧
  ∃ b, d.events <+: [HostEvent.write req.address b, HostEvent.delay (convDelayMs req.res), HostEvent.read req.address]

theorem finish_ended {req : Request} {b : Byte} {d : Driver} (v0 : F64) (d0 : Snapshot) (v : F64) (snap : Snapshot)
    (h : d.events <+: [.write req.address b, .delay (convDelayMs req.res), .read req.address]) :
    (d.finish v snap).Ended req v0 d0 := ⟨.inl ⟨rfl, rfl⟩, rfl, b, h⟩

theorem fail_ended {req : Request} {b : Byte} {d : Driver} (why : Failure)
    (h : d.events <+: [.write req.address b, .delay (convDelayMs req.res), .read req.address]) :
    (d.fail why).Ended req d.analog d.diag := ⟨.inr ⟨rfl, rfl, rfl, rfl⟩, rfl, b, h⟩

/-- Decoding by CONVERT ends, whatever CONVERT answers. -/
theorem run_convert_ended (block : State) (req : Request) (tr : Transport) (v0 : F64) (d0 : Snapshot) {b : Byte}
    {nb : Count} {raw : Raw} (h : encfgResponse block.params req.ch req.res req.gain =
      .ok { byte := some b, int := some nb }) (hw : tr.writeOk = true) (hr : tr.readBytes = some raw) :
    (Driver.start block req tr true v0 d0).run.Ended req v0 d0 := by
  have hfault {f : CommandFault} (hc : convertResponse req.gain req.res raw = .error f) :
      (Driver.start block req tr true v0 d0).run.Ended req v0 d0 := by
    obtain ⟨t, u, -, hrun⟩ := run_of_convert_fault block req tr v0 d0 h hw hr hc
    rw [hrun]
    exact fail_ended _ ⟨[], rfl⟩
  rcases convertResponse_cases req.gain req.res raw with ⟨adj, snap, v, hc, -⟩ | hc | hc
  · obtain ⟨t, u, hrun⟩ := run_of_convert_ok block req tr v0 d0 h hw hr hc
    rw [hrun]
    exact finish_ended v0 d0 v snap ⟨[], rfl⟩
  · exact hfault hc
  · exact hfault hc

/-- Decoding by DECODE and SCALE ends, whatever they answer. -/
theorem run_decode_scale_ended (block : State) (req : Request) (tr : Transport) (v0 : F64) (d0 : Snapshot) {b : Byte}
    {nb : Count} {raw : Raw} (h : encfgResponse block.params req.ch req.res req.gain =
      .ok { byte := some b, int := some nb }) (hw : tr.writeOk = true) (hr : tr.readBytes = some raw) :
    (Driver.start block req tr false v0 d0).run.Ended req v0 d0 := by
  have hdecodeFault {f : CommandFault} (hd : decodeResponse (nb.setWidth 8) req.res raw = .error f) :
      (Driver.start block req tr false v0 d0).run.Ended req v0 d0 := by
    obtain ⟨t, u, -, hrun⟩ := run_of_decode_fault block req tr v0 d0 h hw hr hd
    rw [hrun]
    exact fail_ended _ ⟨[], rfl⟩
  rcases decodeResponse_cases (nb.setWidth 8) req.res raw with ⟨adj, snap, hd, -⟩ | hd | hd
  · have hscaleFault {f : CommandFault} (hs : scaleResponse req.gain req.res adj = .error f) :
        (Driver.start block req tr false v0 d0).run.Ended req v0 d0 := by
      obtain ⟨t, u, u', -, hrun⟩ := run_of_scale_fault block req tr v0 d0 h hw hr hd hs
      rw [hrun]
      exact fail_ended _ ⟨[], rfl⟩
    rcases scaleResponse_cases req.gain req.res adj with ⟨v, hs, -⟩ | hs | hs
    · obtain ⟨t, u, u', hrun⟩ := run_of_scale_ok block req tr v0 d0 h hw hr hd hs
      rw [hrun]
      exact finish_ended v0 d0 v snap ⟨[], rfl⟩
    · exact hscaleFault hs
    · exact hscaleFault hs
  · exact hdecodeFault hd
  · exact hdecodeFault hd

/-- A request whose ENCFG completes ends, whatever the transport answers. -/
theorem run_of_encfg_ok_ended (block : State) (req : Request) (tr : Transport) (viaConvert : Bool) (v0 : F64)
    (d0 : Snapshot) {b : Byte} {nb : Count} (h : encfgResponse block.params req.ch req.res req.gain =
      .ok { byte := some b, int := some nb }) : (Driver.start block req tr viaConvert v0 d0).run.Ended req v0 d0 := by
  cases hw : tr.writeOk with
  | false =>
    obtain ⟨t, -, hrun⟩ := run_of_write_failure block req tr viaConvert v0 d0 h hw
    rw [hrun]
    exact fail_ended _ ⟨_, rfl⟩
  | true =>
    cases hr : tr.readBytes with
    | none =>
      obtain ⟨t, -, hrun⟩ := run_of_read_failure block req tr viaConvert v0 d0 h hw hr
      rw [hrun]
      exact fail_ended _ ⟨[], rfl⟩
    | some raw =>
      cases viaConvert with
      | true => exact run_convert_ended block req tr v0 d0 h hw hr
      | false => exact run_decode_scale_ended block req tr v0 d0 h hw hr

/-- A request whose ENCFG faults ends with no event. -/
theorem run_of_encfg_fault_ended (block : State) (req : Request) (tr : Transport) (viaConvert : Bool) (v0 : F64)
    (d0 : Snapshot) {f : CommandFault} (h : encfgResponse block.params req.ch req.res req.gain = .error f) :
    (Driver.start block req tr viaConvert v0 d0).run.Ended req v0 d0 := by
  obtain ⟨t, hrun⟩ := run_of_encfg_fault block req tr viaConvert v0 d0 h
  rw [hrun]
  exact fail_ended (b := 0) _ ⟨_, rfl⟩

end Machine

/-- Settles O57: a request ends with the fault of one of its commands, with a failure of the transport, or in Done. -/
theorem requestsEndAndKeepTheOrder : Obligations.RequestsEndAndKeepTheOrder := by
  intro block req tr viaConvert v0 d0
  rcases encfgResponse_cases block.params req.ch req.res req.gain with ⟨b, nb, h, -⟩ | h | ⟨-, h | h⟩
  · exact run_of_encfg_ok_ended block req tr viaConvert v0 d0 h
  all_goals exact run_of_encfg_fault_ended block req tr viaConvert v0 d0 h

end Sys2Proof
end
